-- ==== Sys2Proof/Word.lean ====
section
/-! DEFINITION. The word types of the model: bytes, instruction words, and the 64-bit slots that hold a general
register or a counter. A general register is XLEN bits wide (rule R26, `spec/10_state.md`) and XLEN is open, so the
slot has the wider of the two widths and the register operations of `Machine/Ops.lean` keep to XLEN bits. -/

namespace Sys2Proof

/-- One byte of program text. -/
abbrev Byte := BitVec 8

/-- One instruction word (rule R50), and the width of `mcountinhibit` (rule R12). -/
abbrev Word := BitVec 32

/-- The slot of a general register or of the program counter; `COUNT_WIDTH` = 64 (rule R4 P7) is its width too. -/
abbrev DWord := BitVec 64

end Sys2Proof
end

