-- ==== Sys2Proof/Config.lean ====
section
/-! DEFINITION. What an implementation fixes (the parameters of rule R4, `spec/00_scope.md`) and the free values of
the model. The parameters are plain data: `State` holds one `Params`, no step writes it, so a statement about every
state holds for every value of every parameter. The free values are opaque constants without a body, applied to the
draw counter of `State`: nothing can be proved of what they are. -/

namespace Sys2Proof

/-- Parameter P3, the width of the general registers and the pc. -/
inductive Xlen where
  | x32
  | x64
  deriving DecidableEq, Repr

/-- The privilege modes: `M`, and the modes that `LOWER_MODES` may contain (rule R28). -/
inductive Mode where
  | M
  | S
  | U
  deriving DecidableEq, Repr

/-- Parameter P9, rule R86: which value of an inhibit bit the ticks of the writing instruction itself see. -/
inductive InhibitSample where
  | pre
  | post
  | either
  deriving DecidableEq, Repr

/-- The counters that can have a cell: `mcycle`, `minstret` and `mhpmcounter3` to `mhpmcounter10` (rules R23 to R25).
`mhpmcounter i` is the spec's `mhpmcounter(i + 3)`. -/
inductive Counter where
  | mcycle
  | minstret
  | mhpmcounter (i : Fin 8)
  deriving DecidableEq, Repr

/-- The parameters of rule R4 that a model takes as arguments. `WRITABLE_MASK` (P2) and `COUNT_WIDTH` (P7) are fixed
for this hardware; `N_HARTS` (P10) is the number of harts the state holds; `RESET_DRAW` (P8) and `TICK` (P11) are free
values below and moves of `State.schedule`. -/
structure Params where
  /-- P1 `IMPLEMENTED`: whether the hart has the register at all (rules R14 and R89). -/
  implemented : Bool
  /-- P3 `XLEN`. -/
  xlen : Xlen
  /-- P4 `HPM_IMPLEMENTED`: entry i says whether `mhpmcounter(i + 3)` exists; 11 to 31 never do (rule R19). -/
  hpmImplemented : Vector Bool 8
  /-- P5 `MCYCLE_SHARED` (rule R29). -/
  mcycleShared : Bool
  /-- P5 `CORE`: the core number of each hart, by hart number. -/
  coreOf : List Nat
  /-- P6 `LOWER_MODES`. -/
  lowerModes : List Mode
  /-- P9 `INHIBIT_SAMPLE`. -/
  inhibitSample : InhibitSample
  /-- The implementation-defined reset vector (rule R102), DESIGN CHOICE one for all harts (log 6). -/
  resetVector : DWord
  deriving DecidableEq, Repr

/-- DESIGN CHOICE (log 2, log 6): the concrete model's defaults of `spec/92_eei_decisions.md`, and reset vector 0. -/
def Params.default : Params where
  implemented := true
  xlen := .x32
  hpmImplemented := #v[true, true, true, true, true, true, true, true]
  mcycleShared := false
  coreOf := [0]
  lowerModes := [.S, .U]
  inhibitSample := .either
  resetVector := 0#64

/-! ### Free values (rules R9, R22, R80, R86, R90, R101, R102; log 3, 4, 5, 11, 14, 15)

The first argument is the value of `State.draws` at the draw. -/

/-- `RESET_DRAW` of hart `h` (rule R101); it is legalized where it is used. -/
opaque Config.resetInhibit : (n h : Nat) → Word

/-- The reset draw of the `CY` bit held in cell `j` (rules R101 and R103). -/
opaque Config.resetCy : (n j : Nat) → Bool

/-- `count[mcycle]` of cell `j` after reset (rule R102). -/
opaque Config.resetMcycle : (n j : Nat) → DWord

/-- `count[minstret]` of hart `h` after reset (rule R102). -/
opaque Config.resetMinstret : (n h : Nat) → DWord

/-- `count[mhpmcounter(i + 3)]` of hart `h` after reset (rule R102). -/
opaque Config.resetHpm : (n h : Nat) → (i : Fin 8) → DWord

/-- `x[r]` of hart `h` after reset, unspecified (rules R26 and R102). -/
opaque Config.resetX : (n h : Nat) → (r : Fin 32) → DWord

/-- How far the instruction's own ticks of counter `c` that see the OLD inhibit bit would advance it (rules R80, R86);
0 when there is none. -/
opaque Config.ticksSeeingOld : (n : Nat) → (c : Counter) → Nat

/-- The same for the own ticks that see the NEW inhibit bit. -/
opaque Config.ticksSeeingNew : (n : Nat) → (c : Counter) → Nat

/-- How far the own ticks of counter `c` that fall before the reading instruction's read advance it (rule R87). -/
opaque Config.ticksBeforeRead : (n : Nat) → (c : Counter) → Nat

/-- Whether the instruction's own retirement tick sees the old value of `IR` (rule R86, `either`). -/
opaque Config.retirementSeesOld : (n : Nat) → Bool

/-- Whether the value recorded with an illegal-instruction exception is the word, or else 0 (rule R90, U11). -/
opaque Config.recordsWord : (n : Nat) → Bool

end Sys2Proof
end

