-- ==== Sys2Proof/Syntax.lean ====
section
/-! DEFINITION. The instructions of `spec/opcode_table.json`, one constructor per row. Register numbers are `Fin 32`
(rule R51); the CSR address and the immediate are numbers, compared as unsigned numbers (rules R51 and R52), whose
ranges 0 to 4095 and 0 to 31 (rule R57) are the checks of `WellFormed.lean`. -/

namespace Sys2Proof

/-- The six CSR access instructions (rule R53), operands in assembler order (rule R57). -/
inductive Instr where
  /-- `csrrw rd, csr, rs1`, rule R66. -/
  | csrrw (rd : Fin 32) (csr : Nat) (rs1 : Fin 32)
  /-- `csrrs rd, csr, rs1`, rule R67. -/
  | csrrs (rd : Fin 32) (csr : Nat) (rs1 : Fin 32)
  /-- `csrrc rd, csr, rs1`, rule R68. -/
  | csrrc (rd : Fin 32) (csr : Nat) (rs1 : Fin 32)
  /-- `csrrwi rd, csr, uimm`, rule R69. -/
  | csrrwi (rd : Fin 32) (csr : Nat) (uimm : Nat)
  /-- `csrrsi rd, csr, uimm`, rule R70. -/
  | csrrsi (rd : Fin 32) (csr : Nat) (uimm : Nat)
  /-- `csrrci rd, csr, uimm`, rule R71. -/
  | csrrci (rd : Fin 32) (csr : Nat) (uimm : Nat)
  deriving DecidableEq, Repr

/-- The CSR address an instruction names. -/
def Instr.csrAddr : Instr → Nat
  | .csrrw _ a _ => a
  | .csrrs _ a _ => a
  | .csrrc _ a _ => a
  | .csrrwi _ a _ => a
  | .csrrsi _ a _ => a
  | .csrrci _ a _ => a

/-- The destination register of an instruction. -/
def Instr.dest : Instr → Fin 32
  | .csrrw rd _ _ => rd
  | .csrrs rd _ _ => rd
  | .csrrc rd _ _ => rd
  | .csrrwi rd _ _ => rd
  | .csrrsi rd _ _ => rd
  | .csrrci rd _ _ => rd

end Sys2Proof
end

