-- ==== Sys2Proof/WellFormed.lean ====
section
/-! DEFINITION. When an instruction term has an encoding: its CSR address fits the 12-bit field and its immediate the
5-bit field (rules R51, R52, R57). -/

namespace Sys2Proof

/-- A CSR address is 12 bits wide (rules R40 and R51). -/
def csrFits (a : Nat) : Bool := a < 4096

/-- The immediate is 5 bits wide (rule R52). -/
def uimmFits (u : Nat) : Bool := u < 32

/-- The operands fit their fields. -/
def Instr.wf : Instr → Bool
  | .csrrw _ a _ => csrFits a
  | .csrrs _ a _ => csrFits a
  | .csrrc _ a _ => csrFits a
  | .csrrwi _ a u => csrFits a && uimmFits u
  | .csrrsi _ a u => csrFits a && uimmFits u
  | .csrrci _ a u => csrFits a && uimmFits u

end Sys2Proof
end

