-- ==== Sys2Proof/Decode.lean ====
section
/-! DEFINITION. Decoding bytes to instructions and encoding them back (rules R50 to R57, `spec/30_encoding.md`). The
decoder is total: every word is one of the six instructions or is rejected by a name of its own (rule R54). -/

namespace Sys2Proof

/-- Why bytes are no instruction of this spec. -/
inductive DecodeError where
  /-- fewer than four bytes are left (an instruction is one 32-bit word, rule R50) -/
  | truncated
  /-- bits 1:0 are not `11`: a 16-bit form, of which none is in scope (rule R56) -/
  | compressed (w : Word)
  /-- the major opcode is not `1110011` (rule R50): not in scope (rule R54) -/
  | notSystem (w : Word)
  /-- opcode `1110011` with `funct3` 000: environment call, breakpoint, trap return, wait (rule R54): not in scope -/
  | otherSystem (w : Word)
  /-- opcode `1110011` with `funct3` 100: none of the six (rule R54): not in scope -/
  | noSuchFunct3 (w : Word)
  deriving DecidableEq, Repr

/-! ### Fields of a word (rules R50 and R51) -/

/-- The major opcode, word[6:0]. -/
def opcodeField (w : Word) : BitVec 7 := w.extractLsb' 0 7

/-- `rd`, word[11:7]. -/
def rdField (w : Word) : Fin 32 := (w.extractLsb' 7 5).toFin

/-- `funct3`, word[14:12]. -/
def funct3Field (w : Word) : BitVec 3 := w.extractLsb' 12 3

/-- `rs1`, word[19:15]. -/
def rs1Field (w : Word) : Fin 32 := (w.extractLsb' 15 5).toFin

/-- `uimm`, word[19:15] (rule R52). -/
def uimmField (w : Word) : Nat := (w.extractLsb' 15 5).toNat

/-- `csr`, word[31:20]. -/
def csrField (w : Word) : Nat := (w.extractLsb' 20 12).toNat

/-- The instruction a word stands for (rule R53). -/
def decodeWord (w : Word) : Except DecodeError Instr :=
  if w.extractLsb' 0 2 ≠ 0b11#2 then .error (.compressed w)
  else if opcodeField w ≠ 0b1110011#7 then .error (.notSystem w)
  else if funct3Field w = 0b001#3 then .ok (.csrrw (rdField w) (csrField w) (rs1Field w))
  else if funct3Field w = 0b010#3 then .ok (.csrrs (rdField w) (csrField w) (rs1Field w))
  else if funct3Field w = 0b011#3 then .ok (.csrrc (rdField w) (csrField w) (rs1Field w))
  else if funct3Field w = 0b101#3 then .ok (.csrrwi (rdField w) (csrField w) (uimmField w))
  else if funct3Field w = 0b110#3 then .ok (.csrrsi (rdField w) (csrField w) (uimmField w))
  else if funct3Field w = 0b111#3 then .ok (.csrrci (rdField w) (csrField w) (uimmField w))
  else if funct3Field w = 0b000#3 then .error (.otherSystem w)
  else .error (.noSuchFunct3 w)

/-! ### Bytes of a word

PRESUMED (log 9): the byte at the lowest address is the least significant (rule R42 gives little-endian instruction
fetch for the record only). -/

/-- The word four bytes hold, lowest address first. -/
def wordOfBytes (b0 b1 b2 b3 : Byte) : Word := b3 ++ b2 ++ b1 ++ b0

/-- The four bytes of a word, lowest address first. -/
def bytesOfWord (w : Word) : List Byte :=
  [w.extractLsb' 0 8, w.extractLsb' 8 8, w.extractLsb' 16 8, w.extractLsb' 24 8]

/-- Decode the instruction at the head of a list of bytes and return the bytes after it. -/
def decode : List Byte → Except DecodeError (Instr × List Byte)
  | b0 :: b1 :: b2 :: b3 :: rest =>
    match decodeWord (wordOfBytes b0 b1 b2 b3) with
    | .ok i => .ok (i, rest)
    | .error e => .error e
  | _ => .error .truncated

/-! ### Encoding (rules R50 and R53) -/

/-- The one instruction format (rule R50): csr, rs1 or uimm, funct3, rd, opcode. -/
def encodeFields (csr : Nat) (src : Nat) (funct3 : BitVec 3) (rd : Fin 32) : Word :=
  BitVec.ofNat 12 csr ++ BitVec.ofNat 5 src ++ funct3 ++ BitVec.ofNat 5 rd.val ++ 0b1110011#7

/-- The word of an instruction. -/
def encode : Instr → Word
  | .csrrw rd a rs1 => encodeFields a rs1.val 0b001#3 rd
  | .csrrs rd a rs1 => encodeFields a rs1.val 0b010#3 rd
  | .csrrc rd a rs1 => encodeFields a rs1.val 0b011#3 rd
  | .csrrwi rd a u => encodeFields a u 0b101#3 rd
  | .csrrsi rd a u => encodeFields a u 0b110#3 rd
  | .csrrci rd a u => encodeFields a u 0b111#3 rd

/-! ### Pseudo-instructions (rule R57): other spellings of core instructions -/

/-- `csrr rd, csr`: read, no write. -/
def pseudoCsrr (rd : Fin 32) (csr : Nat) : Instr := .csrrs rd csr 0

/-- `csrw csr, rs1`: write, no read. -/
def pseudoCsrw (csr : Nat) (rs1 : Fin 32) : Instr := .csrrw 0 csr rs1

/-- `csrs csr, rs1`: set the bits that are 1 in `rs1`. -/
def pseudoCsrs (csr : Nat) (rs1 : Fin 32) : Instr := .csrrs 0 csr rs1

/-- `csrc csr, rs1`: clear the bits that are 1 in `rs1`. -/
def pseudoCsrc (csr : Nat) (rs1 : Fin 32) : Instr := .csrrc 0 csr rs1

/-- `csrwi csr, uimm`: write the immediate. -/
def pseudoCsrwi (csr : Nat) (uimm : Nat) : Instr := .csrrwi 0 csr uimm

/-- `csrsi csr, uimm`: set the bits that are 1 in `uimm`. -/
def pseudoCsrsi (csr : Nat) (uimm : Nat) : Instr := .csrrsi 0 csr uimm

/-- `csrci csr, uimm`: clear the bits that are 1 in `uimm`. -/
def pseudoCsrci (csr : Nat) (uimm : Nat) : Instr := .csrrci 0 csr uimm

/-! ### The host's numbering of a table word -/

/-- The bytes of an instruction whose low `nbits` bits are those of `w` and whose other bits are 0. Every instruction
is one 32-bit word (rule R50). -/
def tableBytes (nbits w : Nat) : List Byte := bytesOfWord (BitVec.ofNat 32 (w % 2 ^ nbits))

/-- What the decoder reads from a word numbered as `spec/opcode_table.json` numbers it. -/
def decodeTableWord (nbits w : Nat) : Option Instr :=
  match decode (tableBytes nbits w) with
  | .ok (i, _) => some i
  | .error _ => none

end Sys2Proof
end

