-- ==== Sys2Proof/Machine/Bits.lean ====
section
/-! DEFINITION. Pure functions on words that the state and the operations share: the XLEN view of a 64-bit slot, the
writable mask and `legalize`, and where a counter stands in the register and in the CSR space. -/

namespace Sys2Proof.Machine

/-- The low XLEN bits of a slot, zero-extended: the value of an XLEN-bit register (rules R26 and R27). -/
def truncX (l : Xlen) (v : DWord) : DWord :=
  match l with
  | .x32 => (v.setWidth 32).setWidth 64
  | .x64 => v

/-- `WRITABLE_MASK` (rule R4 P2): the `RW` bits 0, 2 and 3 to 10 of rule R15's table. -/
def writableMask : Word := 0x000007FD#32

/-- The bits of the register that are a hart's own whatever `MCYCLE_SHARED` is: all writable bits but `CY` (R29). -/
def ownMask : Word := 0x000007FC#32

/-- `legalize` (rule R62): a written value's low 32 bits, writable bits only. -/
def legalize (v : DWord) : Word := v.setWidth 32 &&& writableMask

/-- The number of a counter: its inhibit bit in `mcountinhibit` (rule R20) and its offset from CSR address `0xB00`
(rules R23 to R25). -/
def counterNumber : Counter → Nat
  | .mcycle => 0
  | .minstret => 2
  | .mhpmcounter i => i.val + 3

/-- Every counter that can have a cell. -/
def allCounters : List Counter :=
  [.mcycle, .minstret, .mhpmcounter 0, .mhpmcounter 1, .mhpmcounter 2, .mhpmcounter 3, .mhpmcounter 4, .mhpmcounter 5,
    .mhpmcounter 6, .mhpmcounter 7]

/-- Whether the counter exists: `mcycle` and `minstret` do, `mhpmcounter(i + 3)` when `HPM_IMPLEMENTED` says so
(rule R25, rule R4 P4). -/
def counterExists (p : Params) : Counter → Bool
  | .mcycle => true
  | .minstret => true
  | .mhpmcounter i => p.hpmImplemented[i]

/-- The inhibit bit of a counter in a value of the register, `inh(c)` (rule R20; 1 is set, D24). -/
def inhibitBit (v : Word) (c : Counter) : Bool := v.getLsbD (counterNumber c)

/-- The number of the cell that holds hart `h`'s `mcycle` and `CY`: one cell per core when `MCYCLE_SHARED`, else one
per hart (rule R29). A hart that `CORE` does not list is a core of its own. -/
def cellNumber (p : Params) (h : Nat) : Nat :=
  if p.mcycleShared then p.coreOf.getD h h else h

/-- Whether a mode is one the hart has: `M` or a member of `LOWER_MODES` (rule R28). -/
def modeExists (p : Params) (m : Mode) : Bool := m == .M || p.lowerModes.contains m

end Sys2Proof.Machine
end

