-- ==== Sys2Proof/Machine/State.lean ====
section
/-! DEFINITION. The state of the machine (rules R10 to R31, `spec/10_state.md`), why a step can stop, and the state
after reset (rules R22, R101 to R103). -/

namespace Sys2Proof.Machine

/-- The program text as (address, byte) pairs, addresses strictly rising. An unlisted address holds nothing, so
fetching from it faults (log 8). -/
abbrev Memory := List Host.Cell

/-- The cell of one `mcycle` and of the `CY` bit that gates it: they are shared together (rule R29). -/
structure CycleCell where
  /-- `mcountinhibit.CY` (rule R16). -/
  cy : Bool
  /-- `count[mcycle]` (rule R23). -/
  count : DWord
  deriving DecidableEq, Repr

/-- What belongs to one hart alone (rule R97). -/
structure Hart where
  /-- General registers; slot 0 belongs to `x0` and stays 0 (rule R26). -/
  x : Vector DWord 32
  /-- The program counter (rule R27). -/
  pc : DWord
  /-- The privilege mode (rule R28). -/
  priv : Mode
  /-- `mcountinhibit` but for `CY`, whose home is the cycle cell; bit 0 stays 0 here (rules R10 and R29). -/
  inhibit : Word
  /-- `count[minstret]` (rule R24). -/
  minstret : DWord
  /-- `count[mhpmcounter(i + 3)]` in cell i; a counter that does not exist keeps 0 (rule R25). -/
  hpm : Vector DWord 8
  deriving DecidableEq, Repr

/-- The moves of the agents of rule R31 and of the environment (rule R108). -/
inductive Move where
  /-- the selected hart executes its next instruction -/
  | run
  /-- the selected hart's counter `c` takes one tick of `k` (rule R81) -/
  | tick (c : Counter) (k : Nat)
  /-- the next moves are hart `h`'s -/
  | select (h : Nat)
  /-- the reset event (rule R101) -/
  | reset
  deriving DecidableEq, Repr

/-- What the illegal-instruction exception records (rule R90). -/
structure TrapInfo where
  /-- the instruction word -/
  word : Word
  /-- the cause code -/
  cause : Nat
  /-- the value recorded with the exception: the word or 0 -/
  tval : Word
  /-- the faulting pc -/
  epc : DWord
  deriving DecidableEq, Repr

/-- Why a step stops with a fault. -/
inductive Fault where
  /-- `IllegalInstruction(word)` (rule R90): raised by the six instructions when the access check of rule R60 or R72
  fails. Nothing has changed; the fault is handed to the enclosing model, whose trap entry the spec leaves out (rule
  R94). Safe: no false claim about a next state can be proved. -/
  | illegalInstruction (info : TrapInfo)
  /-- Raised by the fetch when the pc is no multiple of 4: the enclosing model's business (rule R27). Safe. -/
  | fetchMisaligned (pc : DWord)
  /-- Raised by the fetch when the program text lists no byte at the address (rule R49, log 8). Safe. -/
  | noProgramText (address : Nat)
  deriving DecidableEq, Repr

/-- Why a step has no meaning. -/
inductive Refusal where
  /-- An instruction whose arm of `exec` has no meaning yet. Safe. -/
  | notModelled (mnemonic : String)
  /-- Raised by the six instructions for a CSR address outside rule R72's table, which the spec refuses by name. Safe. -/
  | csrNotInScope (csr : Nat)
  /-- Raised by the step for a word that is none of the six, which the spec refuses by name (rule R54). Safe. -/
  | wordNotInScope (why : DecodeError)
  deriving DecidableEq, Repr

/-- The machine. `left`, `hart` and `right` are all its harts in order (rule R97): the selected one is `hart`, and its
number is the length of `left` (log 18). -/
structure State where
  /-- The parameters of rule R4; no step changes them. -/
  cfg : Params
  /-- The harts before the selected one. -/
  left : List Hart
  /-- The selected hart. -/
  hart : Hart
  /-- The harts after the selected one. -/
  right : List Hart
  /-- The cycle cells, by cell number (`cellNumber`). -/
  cycles : List CycleCell
  /-- The program text (rules R31 and R49). -/
  mem : Memory
  /-- The moves to come; when empty, the selected hart runs (rules R31, R48, R108; log 17). -/
  schedule : List Move
  /-- The model's own counter of draws: the next free value's number (log 23). -/
  draws : Nat
  deriving DecidableEq, Repr

/-- Hart `h` after the reset event that draws number `n` (rules R22, R101, R102). DESIGN CHOICE (log 6): every hart of
the machine leaves reset at the one reset vector of `Params`, where the spec leaves open how harts start. -/
def Hart.atReset (p : Params) (n h : Nat) : Hart where
  x := Vector.ofFn fun r => if r = 0 then 0#64 else truncX p.xlen (Config.resetX n h r)
  pc := truncX p.xlen p.resetVector
  priv := .M
  inhibit := if p.implemented then Config.resetInhibit n h &&& ownMask else 0#32
  minstret := Config.resetMinstret n h
  hpm := Vector.ofFn fun i => if p.hpmImplemented[i] then Config.resetHpm n h i else 0#64

/-- Cycle cell `j` after the reset event that draws number `n` (rules R102 and R103). -/
def CycleCell.atReset (p : Params) (n j : Nat) : CycleCell where
  cy := p.implemented && Config.resetCy n j
  count := Config.resetMcycle n j

/-- The harts numbered `first` to `first + count - 1` after reset. -/
def hartsAtReset (p : Params) (n first count : Nat) : List Hart :=
  (List.range' first count).map (Hart.atReset p n)

/-- The first `count` cycle cells after reset. -/
def cellsAtReset (p : Params) (n count : Nat) : List CycleCell :=
  (List.range count).map (CycleCell.atReset p n)

/-- How many cycle cells the harts 0 to `count - 1` use. -/
def cellsNeeded (p : Params) : (count : Nat) → Nat
  | 0 => 0
  | h + 1 => max (cellsNeeded p h) (cellNumber p h + 1)

/-- A machine of `others + 1` harts right after reset, for any parameters: hart 0 is selected, no program is loaded
and no move is scheduled. -/
def State.resetOf (p : Params) (others : Nat) : State where
  cfg := p
  left := []
  hart := Hart.atReset p 0 0
  right := hartsAtReset p 0 1 others
  cycles := cellsAtReset p 0 (cellsNeeded p (others + 1))
  mem := []
  schedule := []
  draws := 1

/-- The machine right after reset: the default parameters of `spec/92_eei_decisions.md` and one hart (log 2). -/
def State.reset : State := State.resetOf Params.default 0

end Sys2Proof.Machine
end

