-- ==== Sys2Proof/Machine/Ops.lean ====
section
/-! DEFINITION. The named operations on the state: updates, general registers and pc (rules R26, R27), the cycle cell
of a hart (rule R29), program text and fetch (rules R49, R50), and raising the one exception (rule R90). -/

namespace Sys2Proof.Machine

/-! ### Updates, one per field -/

/-- Replace the general registers. -/
def Hart.withX (h : Hart) (x : Vector DWord 32) : Hart := { h with x := x }

/-- Replace the pc. -/
def Hart.withPc (h : Hart) (pc : DWord) : Hart := { h with pc := pc }

/-- Replace the hart's own bits of `mcountinhibit`. -/
def Hart.withInhibit (h : Hart) (v : Word) : Hart := { h with inhibit := v }

/-- Replace `count[minstret]`. -/
def Hart.withMinstret (h : Hart) (v : DWord) : Hart := { h with minstret := v }

/-- Replace the cells of the `mhpmcounter`s. -/
def Hart.withHpm (h : Hart) (v : Vector DWord 8) : Hart := { h with hpm := v }

/-- Replace the selected hart. -/
def State.withHart (s : State) (h : Hart) : State := { s with hart := h }

/-- Replace the cycle cells. -/
def State.withCycles (s : State) (l : List CycleCell) : State := { s with cycles := l }

/-- Replace the program text. -/
def State.withMem (s : State) (m : Memory) : State := { s with mem := m }

/-- Replace the moves to come. -/
def State.withSchedule (s : State) (l : List Move) : State := { s with schedule := l }

/-- Replace the draw counter. -/
def State.withDraws (s : State) (n : Nat) : State := { s with draws := n }

/-- Replace all harts. -/
def State.withHarts (s : State) (left : List Hart) (h : Hart) (right : List Hart) : State :=
  { s with left := left, hart := h, right := right }

/-! ### Harts -/

/-- All harts in order. -/
def State.harts (s : State) : List Hart := s.left ++ s.hart :: s.right

/-- The number of the selected hart. -/
def State.hartNumber (s : State) : Nat := s.left.length

/-! ### General registers and pc -/

/-- `x[r]`, an XLEN-bit value; `x[0]` is 0 (rule R26). -/
def State.readX (s : State) (r : Fin 32) : DWord :=
  if r = 0 then 0#64 else truncX s.cfg.xlen s.hart.x[r]

/-- `x[r] <- v`; a write to `x[0]` is discarded (rule R26). -/
def State.writeX (s : State) (r : Fin 32) (v : DWord) : State :=
  if r = 0 then s else s.withHart (s.hart.withX (s.hart.x.set r (truncX s.cfg.xlen v)))

/-- The pc, an XLEN-bit value (rule R27). -/
def State.pcValue (s : State) : DWord := truncX s.cfg.xlen s.hart.pc

/-- `pc <- pc + 4` modulo 2^XLEN (rule R27). -/
def State.advancePc (s : State) : State :=
  s.withHart (s.hart.withPc (truncX s.cfg.xlen (s.pcValue + 4#64)))

/-! ### The cycle cell of the selected hart -/

/-- What a cell that was never set holds. -/
def CycleCell.blank : CycleCell := { cy := false, count := 0#64 }

/-- Put `c` at place `j` of a list, lengthening it where it is too short. -/
def putCell : List CycleCell → Nat → CycleCell → List CycleCell
  | [], 0, c => [c]
  | [], j + 1, c => CycleCell.blank :: putCell [] j c
  | _ :: l, 0, c => c :: l
  | d :: l, j + 1, c => d :: putCell l j c

/-- Cell number `j`. -/
def State.cellAt (s : State) (j : Nat) : CycleCell := s.cycles.getD j CycleCell.blank

/-- The number of the selected hart's cell. -/
def State.ownCell (s : State) : Nat := cellNumber s.cfg s.hartNumber

/-- The selected hart's cell: the core's when `MCYCLE_SHARED` (rule R29). -/
def State.cycle (s : State) : CycleCell := s.cellAt s.ownCell

/-- Replace the selected hart's cell, and with it that of every sharing hart. -/
def State.setCycle (s : State) (c : CycleCell) : State := s.withCycles (putCell s.cycles s.ownCell c)

/-! ### Program text -/

/-- The byte at an address, or nothing. -/
def memRead : Memory → Nat → Option Byte
  | [], _ => none
  | (b, v) :: m, a => if a = b then some v else memRead m a

/-- The canonical form: addresses strictly rising. -/
def Memory.wf : Memory → Bool
  | [] => true
  | [_] => true
  | (a, _) :: (b, w) :: m => a < b && Memory.wf ((b, w) :: m)

/-- Put a byte at an address, keeping the addresses strictly rising. -/
def memWrite : Memory → Nat → Byte → Memory
  | [], a, v => [(a, v)]
  | (b, w) :: m, a, v =>
    if a < b then (a, v) :: (b, w) :: m
    else if a = b then (a, v) :: m
    else (b, w) :: memWrite m a v

/-- Put bytes at consecutive addresses. -/
def memWriteBytes : Memory → Nat → List Byte → Memory
  | m, _, [] => m
  | m, a, v :: vs => memWriteBytes (memWrite m a v) (a + 1) vs

/-- The `n` bytes from an address on, or the first address that holds none. -/
def memReadBytes (m : Memory) : (a n : Nat) → Except Nat (List Byte)
  | _, 0 => .ok []
  | a, n + 1 =>
    match memRead m a with
    | none => .error a
    | some v =>
      match memReadBytes m (a + 1) n with
      | .ok vs => .ok (v :: vs)
      | .error e => .error e

/-- The bytes of the selected hart's next instruction (rules R27, R50). A misaligned pc comes before everything else
(rule R93; log 10). -/
def State.fetch (s : State) : Except Fault (List Byte) :=
  if s.pcValue.toNat % 4 = 0 then
    match memReadBytes s.mem s.pcValue.toNat 4 with
    | .ok bytes => .ok bytes
    | .error a => .error (.noProgramText a)
  else .error (.fetchMisaligned s.pcValue)

/-! ### The exception

TAKING AN EXCEPTION ends, in this spec, where the exception is raised: rule R94 and `spec/00_scope.md` section 2 leave
trap entry and trap return out and hand the outcome to the enclosing model (log 11). -/

/-- The cause code of an illegal instruction (rule R90). -/
def illegalInstructionCause : Nat := 2

/-- `raise IllegalInstruction(word)` (rule R90): the step ends with the fault, no state changes. The value recorded is
the word or 0, a free choice (U11). -/
def State.raiseIllegal (s : State) (word : Word) : Host.Outcome State Fault Refusal :=
  .fault (.illegalInstruction
    { word := word
      cause := illegalInstructionCause
      tval := if Config.recordsWord s.draws then word else 0#32
      epc := s.pcValue })

end Sys2Proof.Machine
end

