-- ==== Sys2Proof/Machine/Flags.lean ====
section
/-! DEFINITION. This hardware has no condition flags, and no instruction writes any (rule R30). Its one-bit fields are
those of `mcountinhibit`: here are the register as a hart sees it, its write, and its inhibit bits (rules R10 to R22,
R60 to R64, R89). -/

namespace Sys2Proof.Machine

/-- The register as the selected hart sees it: `CY` from the (possibly shared) cell, the other bits its own, the rest
hardwired 0 (rules R15, R19, R21, R29, R61). A hart without the register behaves as though it were 0 (rule R14). -/
def State.inhibitValue (s : State) : Word :=
  if s.cfg.implemented then
    (s.hart.inhibit &&& ownMask) ||| (if s.cycle.cy then 1#32 else 0#32)
  else 0#32

/-- `Write_mcountinhibit` (rule R63): every writable bit at once (rule R64), `CY` into the cell it is kept in. A hart
without the register has nothing to write (rule R14). -/
def State.writeInhibit (s : State) (v : DWord) : State :=
  if s.cfg.implemented then
    (s.withHart (s.hart.withInhibit (legalize v &&& ownMask))).setCycle
      { s.cycle with cy := (legalize v).getLsbD 0 }
  else s

/-- `inh(c)` for the selected hart (rules R20 and R89). -/
def State.inhibited (s : State) (c : Counter) : Bool := inhibitBit s.inhibitValue c

end Sys2Proof.Machine
end

