-- ==== Sys2Proof/Machine/Operands.lean ====
section
/-! DEFINITION. The operand forms of the six instructions and the three operations they make on a CSR (rules R52, R66
to R71, R73). -/

namespace Sys2Proof.Machine

/-- What word[19:15] stands for (rules R51 and R52). -/
inductive Source where
  /-- a general register -/
  | reg (r : Fin 32)
  /-- the immediate -/
  | imm (u : Nat)
  deriving DecidableEq, Repr

/-- The XLEN-bit value of the source: the register, or the immediate zero-extended (rule R52). -/
def Source.value (s : State) : Source → DWord
  | .reg r => s.readX r
  | .imm u => truncX s.cfg.xlen (BitVec.ofNat 64 u)

/-- Whether the source is `x0` by its number, or the immediate 0 by its value (rules R67 and R70). -/
def Source.isZero : Source → Bool
  | .reg r => r == 0
  | .imm u => u == 0

/-- What an instruction does to the CSR. -/
inductive CsrOp where
  /-- replace it -/
  | write
  /-- set the bits that are 1 in the source -/
  | set
  /-- clear the bits that are 1 in the source -/
  | clear
  deriving DecidableEq, Repr

/-- The value written: bitwise, on XLEN bits, no carry and no sign (rule R73). -/
def CsrOp.apply (l : Xlen) (op : CsrOp) (old src : DWord) : DWord :=
  match op with
  | .write => src
  | .set => old ||| src
  | .clear => old &&& truncX l (~~~src)

/-- Whether the instruction writes the CSR at all: the write forms always, the set and clear forms unless their source
is `x0` or the immediate 0 (rules R66 to R71). -/
def CsrOp.writes (op : CsrOp) (src : Source) : Bool :=
  match op with
  | .write => true
  | .set => !src.isZero
  | .clear => !src.isZero

end Sys2Proof.Machine
end

