-- ==== Sys2Proof/Machine/Counters.lean ====
section
/-! DEFINITION. The counters and their ticks (rules R23 to R25 and R80 to R89, `spec/41_counter_increment.md`). -/

namespace Sys2Proof.Machine

/-- `count[c]` of the selected hart; a counter that does not exist reads 0 (rule R25). -/
def State.count (s : State) (c : Counter) : DWord :=
  match c with
  | .mcycle => s.cycle.count
  | .minstret => s.hart.minstret
  | .mhpmcounter i => if s.cfg.hpmImplemented[i] then s.hart.hpm[i] else 0#64

/-- `count[c] <- v`; a write to a counter that does not exist is ignored (rule R25). -/
def State.setCount (s : State) (c : Counter) (v : DWord) : State :=
  match c with
  | .mcycle => s.setCycle { s.cycle with count := v }
  | .minstret => s.withHart (s.hart.withMinstret v)
  | .mhpmcounter i =>
    if s.cfg.hpmImplemented[i] then s.withHart (s.hart.withHpm (s.hart.hpm.set i v)) else s

/-- `Tick(c, k)` (rule R81): the counter advances modulo 2^64 when its inhibit bit is clear, and an inhibited tick is
lost. The privilege mode plays no part (rule R88). -/
def State.tick (s : State) (c : Counter) (k : Nat) : State :=
  if s.inhibited c then s else s.setCount c (s.count c + BitVec.ofNat 64 k)

/-! ### The instruction's own ticks (rules R80, R86, R87) -/

/-- How far the own ticks that see the old inhibit bits, and those that see the new ones, would advance `mcycle` or an
`mhpmcounter`: free values, divided as `INHIBIT_SAMPLE` says (rule R86). -/
def ownTicks (sample : InhibitSample) (n : Nat) (c : Counter) : Nat × Nat :=
  match sample with
  | .pre => (Config.ticksSeeingOld n c + Config.ticksSeeingNew n c, 0)
  | .post => (0, Config.ticksSeeingOld n c + Config.ticksSeeingNew n c)
  | .either => (Config.ticksSeeingOld n c, Config.ticksSeeingNew n c)

/-- The inhibit bit the one retirement tick of `minstret` sees (rule R86). -/
def retirementSees (sample : InhibitSample) (n : Nat) (old new : Bool) : Bool :=
  if old = new then old
  else match sample with
    | .pre => old
    | .post => new
    | .either => if Config.retirementSeesOld n then old else new

/-- How far the instruction's own ticks advance counter `c`, whose inhibit bit was `old` before the access and is `new`
after it: a retired instruction is exactly one tick of `minstret` (rule R80). -/
def ownAdvance (sample : InhibitSample) (n : Nat) (c : Counter) (old new : Bool) : Nat :=
  match c with
  | .minstret => if retirementSees sample n old new then 0 else 1
  | c => (if old then 0 else (ownTicks sample n c).1) + (if new then 0 else (ownTicks sample n c).2)

/-- Apply the own ticks of one counter; an explicit write of the counter cancels them (rule R87). -/
def State.ownTick (old new : Word) (written : Option Counter) (s : State) (c : Counter) : State :=
  if written = some c then s
  else s.setCount c
    (s.count c + BitVec.ofNat 64 (ownAdvance s.cfg.inhibitSample s.draws c (inhibitBit old c) (inhibitBit new c)))

/-- Apply the own ticks of every counter of the hart: `old` and `new` are the register before and after the access. -/
def State.ownTickAll (old new : Word) (written : Option Counter) (s : State) : State :=
  allCounters.foldl (State.ownTick old new written) s

end Sys2Proof.Machine
end

