-- ==== Sys2Proof/Machine/Csr.lean ====
section
/-! DEFINITION. The CSRs of this spec, the access check, read and write, and the one shared operation behind the six
instructions (rules R60 to R65, R72, `spec/40_csr_access.md`). -/

namespace Sys2Proof.Machine

/-- A CSR this spec gives a meaning to (rule R72). -/
inductive Csr where
  /-- `0x320`, `mcountinhibit` -/
  | inhibit
  /-- a counter's low XLEN bits -/
  | low (c : Counter)
  /-- a counter's bits 63:32, when XLEN is 32 -/
  | high (c : Counter)
  /-- `mhpmcounter11` to `mhpmcounter31` or the upper half of one: not implemented on this hardware (rule R19) -/
  | absent
  deriving DecidableEq, Repr

/-- Which of the numbers 0 to 31 are counters, and which of those are not implemented on this hardware. Number 1 is
none (rule R21). -/
def numberedCounter (n : Nat) : Option (Option Counter) :=
  if n = 0 then some (some .mcycle)
  else if n = 2 then some (some .minstret)
  else if h : 3 ≤ n ∧ n < 11 then some (some (.mhpmcounter ⟨n - 3, by omega⟩))
  else if 11 ≤ n ∧ n < 32 then some none
  else none

/-- The CSR at an address, or nothing: rule R72's table. -/
def selectCsr (l : Xlen) (a : Nat) : Option Csr :=
  if a = 0x320 then some .inhibit
  else if 0xB00 ≤ a ∧ a < 0xB20 then
    match numberedCounter (a - 0xB00) with
    | some (some c) => some (.low c)
    | some none => some .absent
    | none => none
  else if l = .x32 ∧ 0xB80 ≤ a ∧ a < 0xBA0 then
    match numberedCounter (a - 0xB80) with
    | some (some c) => some (.high c)
    | some none => some .absent
    | none => none
  else none

/-- The access check: mode `M` for every CSR of this spec, and for `0x320` that the register exists (rules R60, R72). -/
def State.mayAccess (s : State) (c : Csr) : Bool :=
  match c with
  | .inhibit => s.cfg.implemented && s.hart.priv == .M
  | _ => s.hart.priv == .M

/-- Read a CSR as an XLEN-bit value; reading changes nothing (rules R45, R61, R72). -/
def State.readCsr (s : State) (c : Csr) : DWord :=
  match c with
  | .inhibit => s.inhibitValue.setWidth 64
  | .low c => truncX s.cfg.xlen (s.count c)
  | .high c => (s.count c) >>> 32
  | .absent => 0#64

/-- The new value of a counter whose low XLEN bits are written (rule R72). -/
def setLow (l : Xlen) (old v : DWord) : DWord :=
  match l with
  | .x32 => (old.extractLsb' 32 32 ++ v.extractLsb' 0 32 : BitVec 64)
  | .x64 => v

/-- The new value of a counter whose bits 63:32 are written (rule R72). -/
def setHigh (old v : DWord) : DWord := (v.extractLsb' 0 32 ++ old.extractLsb' 0 32 : BitVec 64)

/-- Write an XLEN-bit value to a CSR (rules R63, R72). -/
def State.writeCsr (s : State) (c : Csr) (v : DWord) : State :=
  match c with
  | .inhibit => s.writeInhibit v
  | .low c => s.setCount c (setLow s.cfg.xlen (s.count c) v)
  | .high c => s.setCount c (setHigh (s.count c) v)
  | .absent => s

/-- The counter a write of the CSR writes, whose own tick it cancels (rule R87). -/
def Csr.counter? : Csr → Option Counter
  | .inhibit => none
  | .low c => some c
  | .high c => some c
  | .absent => none

/-- The ticks of `mcycle` or an `mhpmcounter` that fall inside the instruction that reads it, before the read: a free
value (rule R87). The retirement tick of `minstret` is never among them. -/
def State.ticksBeforeRead (s : State) (c : Csr) : State :=
  match c.counter? with
  | none => s
  | some .minstret => s
  | some c => s.tick c (Config.ticksBeforeRead s.draws c)

/-- The access itself, read first and written second in one step (rule R65): the CSR, then `rd`, then the pc. The
source is read before `rd` is written. An access that writes a counter keeps none of its own ticks but in the value it
read (rule R87; log 16). With `rd` = `x0` the value read goes nowhere and reading has no side effect, so the read that
rules R66 and R69 suppress makes no difference. -/
def State.accessCsr (s : State) (c : Csr) (rd : Fin 32) (op : CsrOp) (src : Source) : State :=
  let old := (s.ticksBeforeRead c).readCsr c
  let v := op.apply s.cfg.xlen old (src.value s)
  let s' := if op.writes src then s.writeCsr c v else s.ticksBeforeRead c
  (s'.writeX rd old).advancePc

/-- The counter an access writes, if any. -/
def writtenCounter (c : Csr) (op : CsrOp) (src : Source) : Option Counter :=
  if op.writes src then c.counter? else none

/-- What follows the access: the instruction's own ticks, then the next draw (rules R80, R86, R87). `old` is the
register before the access. -/
def State.retire (s : State) (old : Word) (written : Option Counter) : State :=
  let s' := s.ownTickAll old s.inhibitValue written
  s'.withDraws (s'.draws + 1)

/-- One CSR instruction: scope, access check, access, own ticks (rules R60, R65, R72, R87). The check comes before
everything else and is made for the forms that do not write, too. -/
def State.csrInstr (s : State) (word : Word) (a : Nat) (rd : Fin 32) (op : CsrOp) (src : Source) :
    Host.Outcome State Fault Refusal :=
  match selectCsr s.cfg.xlen a with
  | none => .refused (.csrNotInScope a)
  | some c =>
    if s.mayAccess c then
      .next ((s.accessCsr c rd op src).retire s.inhibitValue (writtenCounter c op src))
    else s.raiseIllegal word

end Sys2Proof.Machine
end

