-- ==== Sys2Proof/Machine/Zicsr.lean ====
section
/-! DEFINITION. The meanings of the six instructions (rules R66 to R72, `spec/40_csr_access.md` section 2). -/

namespace Sys2Proof.Machine

/-- `csrrw rd, csr, rs1` (rule R66). -/
def execCsrrw (rd : Fin 32) (csr : Nat) (rs1 : Fin 32) (s : State) : Host.Outcome State Fault Refusal :=
  s.csrInstr (encode (.csrrw rd csr rs1)) csr rd .write (.reg rs1)

/-- `csrrs rd, csr, rs1` (rule R67). -/
def execCsrrs (rd : Fin 32) (csr : Nat) (rs1 : Fin 32) (s : State) : Host.Outcome State Fault Refusal :=
  s.csrInstr (encode (.csrrs rd csr rs1)) csr rd .set (.reg rs1)

/-- `csrrc rd, csr, rs1` (rule R68). -/
def execCsrrc (rd : Fin 32) (csr : Nat) (rs1 : Fin 32) (s : State) : Host.Outcome State Fault Refusal :=
  s.csrInstr (encode (.csrrc rd csr rs1)) csr rd .clear (.reg rs1)

/-- `csrrwi rd, csr, uimm` (rule R69). -/
def execCsrrwi (rd : Fin 32) (csr : Nat) (uimm : Nat) (s : State) : Host.Outcome State Fault Refusal :=
  s.csrInstr (encode (.csrrwi rd csr uimm)) csr rd .write (.imm uimm)

/-- `csrrsi rd, csr, uimm` (rule R70). -/
def execCsrrsi (rd : Fin 32) (csr : Nat) (uimm : Nat) (s : State) : Host.Outcome State Fault Refusal :=
  s.csrInstr (encode (.csrrsi rd csr uimm)) csr rd .set (.imm uimm)

/-- `csrrci rd, csr, uimm` (rule R71). -/
def execCsrrci (rd : Fin 32) (csr : Nat) (uimm : Nat) (s : State) : Host.Outcome State Fault Refusal :=
  s.csrInstr (encode (.csrrci rd csr uimm)) csr rd .clear (.imm uimm)

end Sys2Proof.Machine
end

