-- ==== Sys2Proof/Machine/Environment.lean ====
section
/-! DEFINITION. The moves of the environment that are not instructions (rules R31, R101 to R103, R108). A tick is
`State.tick` (`Machine/Counters.lean`). -/

namespace Sys2Proof.Machine

/-- Select hart `h`; there being no such hart, nothing happens (log 18). -/
def State.select (s : State) (h : Nat) : State :=
  match s.harts.drop h with
  | x :: r => s.withHarts (s.harts.take h) x r
  | [] => s

/-- `Reset` (rules R101 to R103): every hart and every cycle cell takes fresh draws; the old values play no part. The
parameters, the program text, the selection and the moves to come are not the machine's to reset (log 21). -/
def State.resetAll (s : State) : State :=
  ((s.withHarts (hartsAtReset s.cfg s.draws 0 s.left.length)
      (Hart.atReset s.cfg s.draws s.left.length)
      (hartsAtReset s.cfg s.draws (s.left.length + 1) s.right.length)).withCycles
    (cellsAtReset s.cfg s.draws s.cycles.length)).withDraws (s.draws + 1)

end Sys2Proof.Machine
end

