-- ==== Sys2Proof/Machine/Run.lean ====
section
/-! DEFINITION. One instruction of the selected hart, one move of the schedule, and placing an instruction where the
next step fetches it. -/

namespace Sys2Proof.Machine

/-- Fetch, decode and execute the selected hart's next instruction (rules R27, R50, R54). -/
def State.runHart (s : State) : Host.Outcome State Fault Refusal :=
  match s.fetch with
  | .error f => .fault f
  | .ok bytes =>
    match decode bytes with
    | .error e => .refused (.wordNotInScope e)
    | .ok (i, _) => exec i s

/-- Perform one move (rules R31 and R108). -/
def State.perform (s : State) (m : Move) : Host.Outcome State Fault Refusal :=
  match m with
  | .run => s.runHart
  | .tick c k => .next (s.tick c k)
  | .select h => .next (s.select h)
  | .reset => .next s.resetAll

/-- The schedule under which the selected hart runs next: unchanged where it already does. -/
def runNext : List Move → List Move
  | [] => []
  | .run :: l => .run :: l
  | l => .run :: l

/-- Put an instruction's bytes at the selected hart's pc and let that hart run next (log 25). -/
def State.placeInstr (s : State) (bytes : List Byte) : State :=
  (s.withMem (memWriteBytes s.mem s.pcValue.toNat bytes)).withSchedule (runNext s.schedule)

end Sys2Proof.Machine
end

