-- ==== Sys2Proof/Machine/Step.lean ====
section
/-! DEFINITION. One step of the machine: the next scheduled move, or the selected hart's next instruction. -/

namespace Sys2Proof.Machine

/-- One step (rules R31, R48, R108; log 17). -/
def step (s : State) : Host.Outcome State Fault Refusal :=
  match s.schedule with
  | [] => s.runHart
  | m :: l => (s.withSchedule l).perform m

/-- The state whose next step fetches and runs the instruction of `nbits` bits numbered as the opcode table numbers
them (log 25). -/
def State.withFetchWord (s : State) (nbits w : Nat) : State := s.placeInstr (tableBytes nbits w)

end Sys2Proof.Machine
end

