-- ==== Sys2Proof/Safety.lean ====
section
/-! DEFINITION. What counts as a well-formed state, and what an instruction leaves alone, in the terms the statements
use. -/

namespace Sys2Proof.Machine

/-- The reset vector is the address of an instruction (rule R50). -/
def Params.wf (p : Params) : Prop := (truncX p.xlen p.resetVector).toNat % 4 = 0

/-- What holds of every hart: `x0` is 0 and the registers and the pc are XLEN-bit values (rules R26, R27), the pc is
aligned (rule R27), the mode is one the hart has (rule R28), only writable bits of the register are 1 (rule R10), and
what is not implemented holds nothing (rules R14, R25). -/
structure Hart.wf (p : Params) (h : Hart) : Prop where
  zeroReg : h.x[(0 : Fin 32)] = 0#64
  regWidth : ∀ r : Fin 32, truncX p.xlen h.x[r] = h.x[r]
  pcWidth : truncX p.xlen h.pc = h.pc
  pcAligned : h.pc.toNat % 4 = 0
  mode : modeExists p h.priv = true
  legal : h.inhibit &&& ~~~ownMask = 0#32
  absentRegister : p.implemented = false → h.inhibit = 0#32
  absentCounter : ∀ i : Fin 8, p.hpmImplemented[i] = false → h.hpm[i] = 0#64

/-- The invariant of the machine: every hart is well-formed and has its cycle cell, no `CY` is set where the register
does not exist, and the program text is in canonical form. -/
structure State.wf (s : State) : Prop where
  params : Params.wf s.cfg
  harts : ∀ h ∈ s.harts, Hart.wf s.cfg h
  cells : ∀ n < s.harts.length, cellNumber s.cfg n < s.cycles.length
  absentCy : s.cfg.implemented = false → ∀ c ∈ s.cycles, c.cy = false
  text : Memory.wf s.mem = true

/-- What becomes of a counter's value in an instruction that does not write it: it advances by the `k` of the
instruction's own ticks, by nothing if the inhibit bit those ticks see is set, and `minstret` by the one retirement
tick if it is clear (rules R80, R81). Which bit they see is rule R86's: with `pre` that before the instruction, with
`post` that after it, with `either` one or the other. -/
def OwnTicked (s t : State) (c : Counter) : Prop :=
  ∃ k : Nat, t.count c = s.count c + BitVec.ofNat 64 k ∧
    (s.inhibited c = true → t.inhibited c = true → k = 0) ∧
    (s.cfg.inhibitSample = .pre → s.inhibited c = true → k = 0) ∧
    (s.cfg.inhibitSample = .post → t.inhibited c = true → k = 0) ∧
    (c = .minstret → k ≤ 1 ∧ (s.inhibited c = false → t.inhibited c = false → k = 1) ∧
      (s.cfg.inhibitSample = .pre → s.inhibited c = false → k = 1) ∧
      (s.cfg.inhibitSample = .post → t.inhibited c = false → k = 1))

/-- The frame of a CSR instruction with destination `rd` that writes the counter `written`, if any: everything but
`rd`, the pc, `mcountinhibit` and the written counter stays, except that counters take the instruction's own ticks. -/
structure Frame (s t : State) (rd : Fin 32) (written : Option Counter) : Prop where
  params : t.cfg = s.cfg
  hartsBefore : t.left = s.left
  hartsAfter : t.right = s.right
  regs : ∀ r : Fin 32, r ≠ rd → t.readX r = s.readX r
  mode : t.hart.priv = s.hart.priv
  cells : ∀ j : Nat, j ≠ s.ownCell → t.cellAt j = s.cellAt j
  counters : ∀ c : Counter, written ≠ some c → OwnTicked s t c
  memory : ∀ a : Nat, memRead t.mem a = memRead s.mem a
  moves : t.schedule = s.schedule

/-- The instruction raises the illegal-instruction exception as rule R90 says. -/
def RaisesIllegal (i : Instr) (s : State) : Prop :=
  ∃ info : TrapInfo, exec i s = .fault (.illegalInstruction info) ∧ info.word = encode i ∧ info.cause = 2 ∧
    info.epc = s.pcValue ∧ (info.tval = encode i ∨ info.tval = 0#32)

/-- The instruction completes with `x[rd]` = `old` (but for `x0`, which stays 0), the pc moved on by 4 and the frame
kept (rules R26, R27, R65). -/
structure Completes (s t : State) (rd : Fin 32) (old : DWord) (written : Option Counter) : Prop where
  dest : t.readX rd = if rd = 0 then 0#64 else old
  pc : t.pcValue = truncX s.cfg.xlen (s.pcValue + 4#64)
  frame : Frame s t rd written

/-- The value an instruction writes to its CSR when it reads `old` from it, or nothing where its rule suppresses the
write (the pseudocode of rules R66 to R71, for any CSR by rule R72). -/
def writesValue (i : Instr) (s : State) (old : DWord) : Option DWord :=
  match i with
  | .csrrw _ _ rs1 => some (s.readX rs1)
  | .csrrs _ _ rs1 => if rs1 = 0 then none else some (old ||| s.readX rs1)
  | .csrrc _ _ rs1 => if rs1 = 0 then none else some (old &&& truncX s.cfg.xlen (~~~(s.readX rs1)))
  | .csrrwi _ _ u => some (truncX s.cfg.xlen (BitVec.ofNat 64 u))
  | .csrrsi _ _ u => if u = 0 then none else some (old ||| truncX s.cfg.xlen (BitVec.ofNat 64 u))
  | .csrrci _ _ u =>
    if u = 0 then none else some (old &&& truncX s.cfg.xlen (~~~(truncX s.cfg.xlen (BitVec.ofNat 64 u))))

/-- The instruction writes counter `c`: it addresses the counter or its upper half, and its form writes what it
addresses. A form that only reads does not. -/
def WritesCounter (i : Instr) (s : State) (c : Counter) : Prop :=
  (i.csrAddr = 0xB00 + counterNumber c ∨ i.csrAddr = 0xB80 + counterNumber c) ∧ ∃ old, writesValue i s old ≠ none

/-- The instruction writes `mcountinhibit`: it addresses `0x320`, and its form does not suppress the write. -/
def WritesInhibit (i : Instr) (s : State) : Prop :=
  i.csrAddr = 0x320 ∧ ∃ old, writesValue i s old ≠ none

/-- The next step of `s` is the selected hart's execution of `i`. -/
def State.runs (s : State) (i : Instr) : Prop :=
  (s.schedule = [] ∨ ∃ l, s.schedule = .run :: l) ∧
    ∃ bytes rest, s.fetch = .ok bytes ∧ decode bytes = .ok (i, rest)

/-- `mcountinhibit` as hart number `h` sees it. -/
def State.registerOf (s : State) (h : Nat) : Word := (s.select h).inhibitValue

end Sys2Proof.Machine
end

