-- ==== Sys2Proof/Certificates/Slice0/Obligations.lean ====
section
/-! DEFINITION. The statements for the provers. Each docstring names the rules of spec/ it formalises. -/

open Sys2Proof Sys2Proof.Machine

/-! ### Encoding (`spec/30_encoding.md`) -/

/-- Example words of rule R57's tables and of table T3, one per instruction and one that is none. -/
def Obligations.ExampleWordsDecode : Prop :=
  decodeWord 0x32029373#32 = .ok (.csrrw 6 0x320 5) ∧
  decodeWord 0x3202A373#32 = .ok (.csrrs 6 0x320 5) ∧
  decodeWord 0x3202B373#32 = .ok (.csrrc 6 0x320 5) ∧
  decodeWord 0x320FD2F3#32 = .ok (.csrrwi 5 0x320 31) ∧
  decodeWord 0x32016373#32 = .ok (.csrrsi 6 0x320 2) ∧
  decodeWord 0x32027373#32 = .ok (.csrrci 6 0x320 4) ∧
  decodeWord 0xB0002573#32 = .ok (.csrrs 10 0xB00 0) ∧
  decodeWord 0x32004073#32 = .error (.noSuchFunct3 0x32004073#32)

/-- Decoding the bytes of an encoded well-formed instruction gives it back, and the bytes after it. -/
def Obligations.DecodeOfEncodeGivesInstrBack : Prop :=
  ∀ (i : Instr) (rest : List Byte), i.wf = true → decode (bytesOfWord (encode i) ++ rest) = .ok (i, rest)

/-- Every decoded instruction is well-formed and encodes to the word it was decoded from. -/
def Obligations.EncodeOfDecodeGivesWordBack : Prop :=
  ∀ (w : Word) (i : Instr), decodeWord w = .ok i → encode i = w ∧ i.wf = true

/-- Rule R53: a word is the instruction of a row exactly when `w & mask = match`, with the fields where rule R50 puts
them, and an instruction on this register exactly when the narrower mask says so. -/
def Obligations.DecoderFollowsOpcodeTable : Prop :=
  ∀ w : Word,
    let rd : Fin 32 := (w.extractLsb' 7 5).toFin
    let rs1 : Fin 32 := (w.extractLsb' 15 5).toFin
    let uimm : Nat := (w.extractLsb' 15 5).toNat
    let csr : Nat := (w.extractLsb' 20 12).toNat
    (w &&& 0x0000707F#32 = 0x00001073#32 ↔ decodeWord w = .ok (.csrrw rd csr rs1)) ∧
    (w &&& 0x0000707F#32 = 0x00002073#32 ↔ decodeWord w = .ok (.csrrs rd csr rs1)) ∧
    (w &&& 0x0000707F#32 = 0x00003073#32 ↔ decodeWord w = .ok (.csrrc rd csr rs1)) ∧
    (w &&& 0x0000707F#32 = 0x00005073#32 ↔ decodeWord w = .ok (.csrrwi rd csr uimm)) ∧
    (w &&& 0x0000707F#32 = 0x00006073#32 ↔ decodeWord w = .ok (.csrrsi rd csr uimm)) ∧
    (w &&& 0x0000707F#32 = 0x00007073#32 ↔ decodeWord w = .ok (.csrrci rd csr uimm)) ∧
    (w &&& 0xFFF0707F#32 = 0x32001073#32 ↔ decodeWord w = .ok (.csrrw rd 0x320 rs1)) ∧
    (w &&& 0xFFF0707F#32 = 0x32002073#32 ↔ decodeWord w = .ok (.csrrs rd 0x320 rs1)) ∧
    (w &&& 0xFFF0707F#32 = 0x32003073#32 ↔ decodeWord w = .ok (.csrrc rd 0x320 rs1)) ∧
    (w &&& 0xFFF0707F#32 = 0x32005073#32 ↔ decodeWord w = .ok (.csrrwi rd 0x320 uimm)) ∧
    (w &&& 0xFFF0707F#32 = 0x32006073#32 ↔ decodeWord w = .ok (.csrrsi rd 0x320 uimm)) ∧
    (w &&& 0xFFF0707F#32 = 0x32007073#32 ↔ decodeWord w = .ok (.csrrci rd 0x320 uimm))

/-- Rules R54 and R56: a word that is no row is rejected by name. -/
def Obligations.OtherWordsRejectedByName : Prop :=
  ∀ w : Word,
    (w.extractLsb' 0 2 ≠ 0b11#2 → decodeWord w = .error (.compressed w)) ∧
    (w.extractLsb' 0 2 = 0b11#2 → w.extractLsb' 0 7 ≠ 0x73#7 → decodeWord w = .error (.notSystem w)) ∧
    (w.extractLsb' 0 7 = 0x73#7 → w.extractLsb' 12 3 = 0b000#3 → decodeWord w = .error (.otherSystem w)) ∧
    (w.extractLsb' 0 7 = 0x73#7 → w.extractLsb' 12 3 = 0b100#3 → decodeWord w = .error (.noSuchFunct3 w)) ∧
    (w.extractLsb' 0 7 = 0x73#7 → w.extractLsb' 12 3 ≠ 0b000#3 → w.extractLsb' 12 3 ≠ 0b100#3 →
      ∃ i, decodeWord w = .ok i)

/-! ### Steps -/

/-- When the bytes at the pc decode to an instruction and the selected hart runs next, the step is that instruction's
execution, on the state without the move that called for it. -/
def Obligations.StepRunsDecodedInstr : Prop :=
  ∀ (s : State) (bytes rest : List Byte) (i : Instr), s.fetch = .ok bytes → decode bytes = .ok (i, rest) →
    (s.schedule = [] → step s = exec i s) ∧
    (∀ l, s.schedule = .run :: l → step s = exec i (s.withSchedule l))

/-- The same from the program text: the little-endian bytes of a well-formed instruction at an aligned pc run it. The
byte order is the model's (log 9). -/
def Obligations.StepRunsEncodedInstrAtPc : Prop :=
  ∀ (s : State) (i : Instr), i.wf = true → s.schedule = [] → s.pcValue.toNat % 4 = 0 →
    memReadBytes s.mem s.pcValue.toNat 4 = .ok (bytesOfWord (encode i)) → step s = exec i s

/-- An instruction placed by `withFetchWord` at an aligned pc is what the next step runs. -/
def Obligations.PlacedWordRunsNext : Prop :=
  ∀ (s : State) (i : Instr), i.wf = true → s.schedule = [] → s.pcValue.toNat % 4 = 0 →
    step (s.withFetchWord 32 (encode i).toNat) = exec i (s.withFetchWord 32 (encode i).toNat)

/-- The moves of rule R108 that are no instruction: each is one step that answers a next state, and takes the move off
the schedule (the schedule is the model's, log 17). -/
def Obligations.ScheduledMovesComplete : Prop :=
  ∀ (s : State) (l : List Move),
    (∀ c k, s.schedule = .tick c k :: l → step s = .next ((s.withSchedule l).tick c k)) ∧
    (∀ h, s.schedule = .select h :: l → step s = .next ((s.withSchedule l).select h)) ∧
    (s.schedule = .reset :: l → step s = .next (s.withSchedule l).resetAll)

/-- A pc that is no multiple of 4, and a pc without program text, stop the step by name (log 8, log 10), and so does a
word that is none of the six (rule R54; the names are the model's, log 13). -/
def Obligations.StepStopsByName : Prop :=
  ∀ s : State, s.schedule = [] →
    (s.pcValue.toNat % 4 ≠ 0 → step s = .fault (.fetchMisaligned s.pcValue)) ∧
    (s.pcValue.toNat % 4 = 0 → memRead s.mem s.pcValue.toNat = none →
      step s = .fault (.noProgramText s.pcValue.toNat)) ∧
    (∀ w e, s.pcValue.toNat % 4 = 0 → memReadBytes s.mem s.pcValue.toNat 4 = .ok (bytesOfWord w) →
      decodeWord w = .error e → step s = .refused (.wordNotInScope e))

/-! ### The six instructions on mcountinhibit (`spec/40_csr_access.md`) -/

/-- Rule R66, whole: encoding, completion with its frame, exception. -/
def Obligations.CsrrwOnMcountinhibit : Prop :=
  ∀ (s : State) (rd rs1 : Fin 32),
    encode (.csrrw rd 0x320 rs1) = 0x320#12 ++ BitVec.ofNat 5 rs1 ++ 0b001#3 ++ BitVec.ofNat 5 rd ++ 0b1110011#7 ∧
    (s.cfg.implemented = true → s.hart.priv = .M → ∃ t, exec (.csrrw rd 0x320 rs1) s = .next t ∧
      t.inhibitValue = (s.readX rs1).setWidth 32 &&& 0x000007FD#32 ∧
      Completes s t rd (s.inhibitValue.setWidth 64) none) ∧
    (¬ (s.cfg.implemented = true ∧ s.hart.priv = .M) → RaisesIllegal (.csrrw rd 0x320 rs1) s)

/-- Rule R67, whole. The write is suppressed on the register number, not on its value. -/
def Obligations.CsrrsOnMcountinhibit : Prop :=
  ∀ (s : State) (rd rs1 : Fin 32),
    encode (.csrrs rd 0x320 rs1) = 0x320#12 ++ BitVec.ofNat 5 rs1 ++ 0b010#3 ++ BitVec.ofNat 5 rd ++ 0b1110011#7 ∧
    (s.cfg.implemented = true → s.hart.priv = .M → ∃ t, exec (.csrrs rd 0x320 rs1) s = .next t ∧
      t.inhibitValue = (if rs1 = 0 then s.inhibitValue
        else (s.inhibitValue ||| (s.readX rs1).setWidth 32) &&& 0x000007FD#32) ∧
      Completes s t rd (s.inhibitValue.setWidth 64) none) ∧
    (¬ (s.cfg.implemented = true ∧ s.hart.priv = .M) → RaisesIllegal (.csrrs rd 0x320 rs1) s)

/-- Rule R68, whole. -/
def Obligations.CsrrcOnMcountinhibit : Prop :=
  ∀ (s : State) (rd rs1 : Fin 32),
    encode (.csrrc rd 0x320 rs1) = 0x320#12 ++ BitVec.ofNat 5 rs1 ++ 0b011#3 ++ BitVec.ofNat 5 rd ++ 0b1110011#7 ∧
    (s.cfg.implemented = true → s.hart.priv = .M → ∃ t, exec (.csrrc rd 0x320 rs1) s = .next t ∧
      t.inhibitValue = (if rs1 = 0 then s.inhibitValue
        else (s.inhibitValue &&& ~~~((s.readX rs1).setWidth 32)) &&& 0x000007FD#32) ∧
      Completes s t rd (s.inhibitValue.setWidth 64) none) ∧
    (¬ (s.cfg.implemented = true ∧ s.hart.priv = .M) → RaisesIllegal (.csrrc rd 0x320 rs1) s)

/-- Rule R69, whole. The write takes place for every immediate. -/
def Obligations.CsrrwiOnMcountinhibit : Prop :=
  ∀ (s : State) (rd : Fin 32) (u : Nat),
    encode (.csrrwi rd 0x320 u) = 0x320#12 ++ BitVec.ofNat 5 u ++ 0b101#3 ++ BitVec.ofNat 5 rd ++ 0b1110011#7 ∧
    (s.cfg.implemented = true → s.hart.priv = .M → ∃ t, exec (.csrrwi rd 0x320 u) s = .next t ∧
      t.inhibitValue = BitVec.ofNat 32 u &&& 0x000007FD#32 ∧
      Completes s t rd (s.inhibitValue.setWidth 64) none) ∧
    (¬ (s.cfg.implemented = true ∧ s.hart.priv = .M) → RaisesIllegal (.csrrwi rd 0x320 u) s)

/-- Rule R70, whole. The write is suppressed for the immediate 0. -/
def Obligations.CsrrsiOnMcountinhibit : Prop :=
  ∀ (s : State) (rd : Fin 32) (u : Nat),
    encode (.csrrsi rd 0x320 u) = 0x320#12 ++ BitVec.ofNat 5 u ++ 0b110#3 ++ BitVec.ofNat 5 rd ++ 0b1110011#7 ∧
    (s.cfg.implemented = true → s.hart.priv = .M → ∃ t, exec (.csrrsi rd 0x320 u) s = .next t ∧
      t.inhibitValue = (if u = 0 then s.inhibitValue
        else (s.inhibitValue ||| BitVec.ofNat 32 u) &&& 0x000007FD#32) ∧
      Completes s t rd (s.inhibitValue.setWidth 64) none) ∧
    (¬ (s.cfg.implemented = true ∧ s.hart.priv = .M) → RaisesIllegal (.csrrsi rd 0x320 u) s)

/-- Rule R71, whole. -/
def Obligations.CsrrciOnMcountinhibit : Prop :=
  ∀ (s : State) (rd : Fin 32) (u : Nat),
    encode (.csrrci rd 0x320 u) = 0x320#12 ++ BitVec.ofNat 5 u ++ 0b111#3 ++ BitVec.ofNat 5 rd ++ 0b1110011#7 ∧
    (s.cfg.implemented = true → s.hart.priv = .M → ∃ t, exec (.csrrci rd 0x320 u) s = .next t ∧
      t.inhibitValue = (if u = 0 then s.inhibitValue
        else (s.inhibitValue &&& ~~~(BitVec.ofNat 32 u)) &&& 0x000007FD#32) ∧
      Completes s t rd (s.inhibitValue.setWidth 64) none) ∧
    (¬ (s.cfg.implemented = true ∧ s.hart.priv = .M) → RaisesIllegal (.csrrci rd 0x320 u) s)

/-- Rule R90 and the common part of the six rules: whatever the form, an access to `0x320` below `M`, or where the
register does not exist, is the illegal-instruction exception, and so is every access to a counter below `M` (rule
R72). -/
def Obligations.AccessBelowMachineModeRaisesIllegal : Prop :=
  ∀ (s : State) (i : Instr),
    (i.csrAddr = 0x320 → (s.hart.priv ≠ .M ∨ s.cfg.implemented = false) → RaisesIllegal i s) ∧
    (∀ c, selectCsr s.cfg.xlen i.csrAddr = some c → s.hart.priv ≠ .M → RaisesIllegal i s)

/-- The converse of rule R91: in `M`, with the register there, no access of rule R72's table raises anything, whatever
is written. -/
def Obligations.AccessInMachineModeCompletes : Prop :=
  ∀ (s : State) (i : Instr) (c : Csr), selectCsr s.cfg.xlen i.csrAddr = some c → s.hart.priv = .M →
    s.cfg.implemented = true → ∃ t, exec i s = .next t ∧ t.draws = s.draws + 1

/-- With an immediate only `CY`, `IR`, `HPM3` and `HPM4` can be set or cleared, and `csrrwi` clears `HPM5` to `HPM10`
(rules R52, R69, R70, R71). -/
def Obligations.ImmediateReachesFourFields : Prop :=
  ∀ (s : State) (rd : Fin 32) (u : Nat), u < 32 → s.cfg.implemented = true → s.hart.priv = .M →
    (∃ t, exec (.csrrsi rd 0x320 u) s = .next t ∧
      ∀ n, n ≠ 0 → n ≠ 2 → n ≠ 3 → n ≠ 4 → t.inhibitValue.getLsbD n = s.inhibitValue.getLsbD n) ∧
    (∃ t, exec (.csrrci rd 0x320 u) s = .next t ∧
      ∀ n, n ≠ 0 → n ≠ 2 → n ≠ 3 → n ≠ 4 → t.inhibitValue.getLsbD n = s.inhibitValue.getLsbD n) ∧
    (∃ t, exec (.csrrwi rd 0x320 u) s = .next t ∧ ∀ n, 5 ≤ n → t.inhibitValue.getLsbD n = false)

/-- `csrrw x0, 0x320, x0` enables every counter, whatever the register held (rule R105). -/
def Obligations.WritingZeroEnablesEveryCounter : Prop :=
  ∀ s : State, s.cfg.implemented = true → s.hart.priv = .M →
    ∃ t, exec (.csrrw 0 0x320 0) s = .next t ∧ t.inhibitValue = 0#32 ∧ ∀ c, t.inhibited c = false

/-- A read of the register has no side effect on it: a second read returns what the first returned, also where the
destination of the first is `x0` (rules R45, R104). -/
def Obligations.ReadingTwiceGivesSameValue : Prop :=
  ∀ (s : State) (rd rd' : Fin 32), s.cfg.implemented = true → s.hart.priv = .M → rd' ≠ 0 →
    ∃ t u, exec (.csrrs rd 0x320 0) s = .next t ∧ exec (.csrrs rd' 0x320 0) t = .next u ∧
      (rd ≠ 0 → t.readX rd = s.inhibitValue.setWidth 64) ∧ u.readX rd' = s.inhibitValue.setWidth 64 ∧
      u.inhibitValue = s.inhibitValue

/-- Writing the same value twice is the same as writing it once (rule R45). -/
def Obligations.WritingTwiceIsWritingOnce : Prop :=
  ∀ (s : State) (rs1 : Fin 32), s.cfg.implemented = true → s.hart.priv = .M →
    ∃ t u, exec (.csrrw 0 0x320 rs1) s = .next t ∧ exec (.csrrw 0 0x320 rs1) t = .next u ∧
      u.inhibitValue = t.inhibitValue ∧ u.readX rs1 = s.readX rs1

/-! ### The register (`spec/10_state.md`) -/

/-- Rules R19 and R21: `HPM11` to `HPM31` and bit 1 read 0 in every state, also right after any value is written. -/
def Obligations.ReadOnlyBitsReadZero : Prop :=
  ∀ (s : State) (v : DWord) (n : Nat), (n = 1 ∨ 11 ≤ n) →
    s.inhibitValue.getLsbD n = false ∧ (s.writeInhibit v).inhibitValue.getLsbD n = false

/-- Rules R16 to R18: a write to `CY`, `IR` or `HPM3` to `HPM10` is kept and read back, each field by itself. -/
def Obligations.WritableBitsAreKept : Prop :=
  ∀ (s : State) (v : DWord) (n : Nat), s.cfg.implemented = true → (n = 0 ∨ n = 2 ∨ (3 ≤ n ∧ n ≤ 10)) →
    (s.writeInhibit v).inhibitValue.getLsbD n = v.getLsbD n

/-- The properties of `legalize` listed with table T2: nothing outside the mask, idempotent, a homomorphism for `|` and
`&`, and the identity on exactly the legal values (rule R62). -/
def Obligations.LegalizeLaws : Prop :=
  ∀ v w : DWord,
    legalize v = v.setWidth 32 &&& 0x000007FD#32 ∧
    legalize v &&& 0xFFFFF802#32 = 0#32 ∧
    legalize ((legalize v).setWidth 64) = legalize v ∧
    legalize (v ||| w) = legalize v ||| legalize w ∧
    legalize (v &&& w) = legalize v &&& legalize w ∧
    ((legalize v).setWidth 64 = v ↔ v &&& ~~~(0x7FD#64) = 0#64)

/-- Rules R14, R81 and R89: where the register does not exist it acts as 0: no counter is inhibited and ticks always
advance the counters. That a write has nowhere to go is the model's inference (log 20). -/
def Obligations.AbsentRegisterActsAsZero : Prop :=
  ∀ (s : State) (c : Counter) (k : Nat) (v : DWord), s.cfg.implemented = false →
    s.inhibitValue = 0#32 ∧ s.inhibited c = false ∧
    (counterExists s.cfg c = true → (s.tick c k).count c = s.count c + BitVec.ofNat 64 k) ∧ s.writeInhibit v = s

/-- Rules R29 and R46: after hart A writes the register, every hart whose cell is A's reads the `CY` that A wrote and
its own other fields as before; every hart with another cell reads what it read before. -/
def Obligations.WriteOfSharedCyIsVisible : Prop :=
  ∀ (s : State) (rd rs1 : Fin 32) (b : Nat), s.cfg.implemented = true → s.hart.priv = .M →
    b < s.harts.length → b ≠ s.hartNumber →
    ∃ t, exec (.csrrw rd 0x320 rs1) s = .next t ∧
      (cellNumber s.cfg b = s.ownCell → (t.registerOf b).getLsbD 0 = (s.readX rs1).getLsbD 0) ∧
      (cellNumber s.cfg b ≠ s.ownCell → (t.registerOf b).getLsbD 0 = (s.registerOf b).getLsbD 0) ∧
      ∀ n, n ≠ 0 → (t.registerOf b).getLsbD n = (s.registerOf b).getLsbD n

/-- Which cell a hart has (rule R29): without sharing its own, with sharing the one of its core and of no other core. -/
def Obligations.CycleCellIsSharedByCore : Prop :=
  ∀ (p : Params) (a b : Nat),
    (p.mcycleShared = false → (cellNumber p a = cellNumber p b ↔ a = b)) ∧
    (p.mcycleShared = true → ∀ j k, p.coreOf[a]? = some j → p.coreOf[b]? = some k →
      (cellNumber p a = cellNumber p b ↔ j = k))

/-! ### The counters (`spec/40_csr_access.md` rule R72, `spec/41_counter_increment.md`) -/

/-- Rule R72 for a counter that exists, at its address: all six instructions complete in `M`, `rd` gets the counter's
low XLEN bits, a write puts those bits and no own tick is added to them (rule R87), and the inhibit register plays no
part (rule R85). The `k` are the ticks inside the instruction before its read: none for `minstret`, none while the
counter is inhibited. -/
def Obligations.CounterAccessAtLowAddress : Prop :=
  ∀ (s : State) (i : Instr) (c : Counter), counterExists s.cfg c = true → i.csrAddr = 0xB00 + counterNumber c →
    s.hart.priv = .M →
    ∃ (t : State) (k : Nat), exec i s = .next t ∧
      (s.inhibited c = true ∨ c = .minstret → k = 0) ∧
      t.inhibitValue = s.inhibitValue ∧
      match writesValue i s (truncX s.cfg.xlen (s.count c + BitVec.ofNat 64 k)) with
      | none => Completes s t i.dest (truncX s.cfg.xlen (s.count c + BitVec.ofNat 64 k)) none
      | some v => Completes s t i.dest (truncX s.cfg.xlen (s.count c + BitVec.ofNat 64 k)) (some c) ∧
          (s.cfg.xlen = .x64 → t.count c = v) ∧
          (s.cfg.xlen = .x32 → (t.count c).setWidth 32 = v.setWidth 32 ∧ t.count c >>> 32 = s.count c >>> 32)

/-- Rule R72 for the upper halves, which exist only when XLEN is 32. -/
def Obligations.CounterAccessAtHighAddress : Prop :=
  ∀ (s : State) (i : Instr) (c : Counter), s.cfg.xlen = .x32 → counterExists s.cfg c = true →
    i.csrAddr = 0xB80 + counterNumber c → s.hart.priv = .M →
    ∃ (t : State) (k : Nat), exec i s = .next t ∧
      (s.inhibited c = true ∨ c = .minstret → k = 0) ∧
      t.inhibitValue = s.inhibitValue ∧
      match writesValue i s ((s.count c + BitVec.ofNat 64 k) >>> 32) with
      | none => Completes s t i.dest ((s.count c + BitVec.ofNat 64 k) >>> 32) none
      | some v => Completes s t i.dest ((s.count c + BitVec.ofNat 64 k) >>> 32) (some c) ∧
          (t.count c >>> 32).setWidth 32 = v.setWidth 32 ∧ (t.count c).setWidth 32 = (s.count c).setWidth 32

/-- Rules R25 and R72 for a number 3 to 31 that has no counter, at its address or, with XLEN 32, at that of its upper
half: the read returns 0 and a write is ignored. -/
def Obligations.AbsentCounterReadsZero : Prop :=
  ∀ (s : State) (i : Instr) (n : Nat), 3 ≤ n → n ≤ 31 →
    (∀ c, counterNumber c = n → counterExists s.cfg c = false) →
    (i.csrAddr = 0xB00 + n ∨ (s.cfg.xlen = .x32 ∧ i.csrAddr = 0xB80 + n)) → s.hart.priv = .M →
    ∃ t, exec i s = .next t ∧ t.inhibitValue = s.inhibitValue ∧ Completes s t i.dest 0#64 none

/-- Rule R72: every other CSR address is refused by name in every mode, among them the read-only views and, with XLEN
64, the upper halves. -/
def Obligations.OtherCsrRefusedByName : Prop :=
  ∀ (s : State) (i : Instr), i.csrAddr ≠ 0x320 →
    (i.csrAddr < 0xB00 ∨ 0xB20 ≤ i.csrAddr ∨ i.csrAddr = 0xB01) →
    (s.cfg.xlen = .x32 → i.csrAddr < 0xB80 ∨ 0xBA0 ≤ i.csrAddr ∨ i.csrAddr = 0xB81) →
    exec i s = .refused (.csrNotInScope i.csrAddr)

/-- Rule R81: a tick of a counter that exists advances it modulo 2^64 when its inhibit bit is clear and is lost when
the bit is set; no other counter, no register and no mode is touched. -/
def Obligations.TickIsGated : Prop :=
  ∀ (s : State) (c : Counter) (k : Nat), counterExists s.cfg c = true →
    (s.inhibited c = false → ((s.tick c k).count c).toNat = ((s.count c).toNat + k) % 2 ^ 64) ∧
    (s.inhibited c = true → s.tick c k = s) ∧
    (∀ d, d ≠ c → (s.tick c k).count d = s.count d) ∧
    (s.tick c k).inhibitValue = s.inhibitValue ∧ (∀ r, (s.tick c k).readX r = s.readX r) ∧
    (s.tick c k).hart.pc = s.hart.pc ∧ (s.tick c k).hart.priv = s.hart.priv ∧ (s.tick c k).cfg = s.cfg ∧
    (s.tick c k).left = s.left ∧ (s.tick c k).right = s.right ∧ (s.tick c k).mem = s.mem ∧
    ∀ j, j ≠ s.ownCell → (s.tick c k).cellAt j = s.cellAt j

/-- Rules R82 to R84: which bit of the register gates which counter. -/
def Obligations.EachBitGatesItsCounter : Prop :=
  ∀ s : State,
    s.inhibited .mcycle = s.inhibitValue.getLsbD 0 ∧
    s.inhibited .minstret = s.inhibitValue.getLsbD 2 ∧
    ∀ i : Fin 8, s.inhibited (.mhpmcounter i) = s.inhibitValue.getLsbD (i.val + 3)

/-- Rule R88: a tick does what it does in any mode of the hart. -/
def Obligations.GatingIgnoresMode : Prop :=
  ∀ (s : State) (m : Mode) (c : Counter) (k : Nat),
    ((s.withHart { s.hart with priv := m }).tick c k).count c = (s.tick c k).count c ∧
    ((s.withHart { s.hart with priv := m }).tick c k).hart.priv = m ∧
    (s.withHart { s.hart with priv := m }).inhibitValue = s.inhibitValue ∧
    (s.withHart { s.hart with priv := m }).inhibited c = s.inhibited c

/-- Rules R80, R83 and R86: a completed instruction that does not write `minstret`, be it one that reads it, is counted
exactly once while `IR` is clear, not at all while `IR` is set, and where it changes `IR` itself as `INHIBIT_SAMPLE`
says. -/
def Obligations.RetirementIsCountedOnce : Prop :=
  ∀ (s t : State) (i : Instr), exec i s = .next t → ¬ WritesCounter i s .minstret →
    (t.count .minstret = s.count .minstret ∨ t.count .minstret = s.count .minstret + 1#64) ∧
    (s.inhibited .minstret = false → t.inhibited .minstret = false → t.count .minstret = s.count .minstret + 1#64) ∧
    (s.inhibited .minstret = true → t.inhibited .minstret = true → t.count .minstret = s.count .minstret) ∧
    (s.cfg.inhibitSample = .pre →
      t.count .minstret = if s.inhibited .minstret then s.count .minstret else s.count .minstret + 1#64) ∧
    (s.cfg.inhibitSample = .post →
      t.count .minstret = if t.inhibited .minstret then s.count .minstret else s.count .minstret + 1#64)

/-- Rule R87 for a read of `minstret`: the value read leaves out the reading instruction, which is counted after. -/
def Obligations.ReadOfMinstretLeavesItselfOut : Prop :=
  ∀ (s : State) (rd : Fin 32), s.hart.priv = .M → rd ≠ 0 →
    ∃ t, exec (.csrrs rd 0xB02 0) s = .next t ∧ t.readX rd = truncX s.cfg.xlen (s.count .minstret) ∧
      t.count .minstret = if s.inhibited .minstret then s.count .minstret else s.count .minstret + 1#64

/-- Rule R85 and the last sentence of rule R3: whatever is written to the register, an access completes, raises the
exception or is refused exactly as it did before. The recorded value of the exception is not compared: it is a draw. -/
def Obligations.AccessibilityIgnoresInhibitBits : Prop :=
  ∀ (s : State) (v : DWord) (i : Instr),
    ((∃ t, exec i s = .next t) ↔ ∃ t, exec i (s.writeInhibit v) = .next t) ∧
    (RaisesIllegal i s ↔ RaisesIllegal i (s.writeInhibit v)) ∧
    (∀ r, exec i s = .refused r ↔ exec i (s.writeInhibit v) = .refused r) ∧
    (∀ c, (s.writeInhibit v).count c = s.count c)

/-! ### Registers -/

/-- Rule R26: `x0` reads 0 in every state and a write to it changes nothing; every other register reads back the XLEN
bits written and no other register changes. -/
def Obligations.GeneralRegistersReadBack : Prop :=
  ∀ (s : State) (r : Fin 32) (v : DWord),
    s.readX 0 = 0#64 ∧ s.writeX 0 v = s ∧
    (r ≠ 0 → (s.writeX r v).readX r = truncX s.cfg.xlen v) ∧
    (∀ q, q ≠ r → (s.writeX r v).readX q = s.readX q)

/-! ### Program text -/

/-- A byte put into the program text is read back, every other byte stays, and the canonical form is kept. -/
def Obligations.ProgramTextReadsBack : Prop :=
  ∀ (m : Memory) (a b : Nat) (v : Byte),
    memRead (memWrite m a v) a = some v ∧ (b ≠ a → memRead (memWrite m a v) b = memRead m b) ∧
    (Memory.wf m = true → Memory.wf (memWrite m a v) = true)

/-! ### Reset (`spec/70_reset_and_hazards.md`) -/

/-- The machine right after reset, for any parameters and number of harts, is well-formed if its reset vector is. -/
def Obligations.ResetIsWellFormed : Prop :=
  ∀ (p : Params) (others : Nat), Params.wf p → (State.resetOf p others).wf

/-- Rules R22, R101, R102: what reset leaves. The reset vector 0 is the model's choice (log 6); what the spec leaves
open is a free value, so the statement names none. -/
def Obligations.ResetLeavesMachineMode : Prop :=
  State.reset.hart.priv = .M ∧ State.reset.pcValue = 0#64 ∧ State.reset.mem = [] ∧ State.reset.schedule = [] ∧
    State.reset.harts.length = 1 ∧ State.reset.inhibitValue &&& 0xFFFFF802#32 = 0#32 ∧ State.reset.readX 0 = 0#64 ∧
    State.reset.wf

/-- The reset event (rules R101 to R103), field by field: parameters, program text, number of harts and selection stay,
and every hart `n`, looked at by selecting it, is in `M` at the one reset vector (one for all harts: log 6) and holds
what that reset drew, cut to XLEN bits and 0 where nothing is implemented. One draw per cycle cell is the `CY` and the
`mcycle` of all harts that have the cell. -/
def Obligations.ResetEventRedrawsEveryHart : Prop :=
  ∀ (s : State) (l : List Move), s.schedule = .reset :: l →
    ∃ t, step s = .next t ∧ t.cfg = s.cfg ∧ t.mem = s.mem ∧ t.schedule = l ∧ t.draws = s.draws + 1 ∧
      t.harts.length = s.harts.length ∧ t.hartNumber = s.hartNumber ∧
      ∀ n < s.harts.length,
        (t.select n).hart.priv = .M ∧ (t.select n).pcValue = truncX s.cfg.xlen s.cfg.resetVector ∧
        (∀ r, (t.select n).readX r = if r = 0 then 0#64 else truncX s.cfg.xlen (Config.resetX s.draws n r)) ∧
        (t.select n).count .minstret = Config.resetMinstret s.draws n ∧
        (∀ i : Fin 8, (t.select n).count (.mhpmcounter i) =
          if s.cfg.hpmImplemented[i] then Config.resetHpm s.draws n i else 0#64) ∧
        (s.cfg.implemented = false → t.registerOf n = 0#32) ∧
        (cellNumber s.cfg n < s.cycles.length →
          (t.select n).count .mcycle = Config.resetMcycle s.draws (cellNumber s.cfg n) ∧
          (s.cfg.implemented = true →
            t.registerOf n = (Config.resetInhibit s.draws n &&& 0x000007FC#32) |||
              (if Config.resetCy s.draws (cellNumber s.cfg n) then 1#32 else 0#32)))

/-- Rule R104: the first reads of the register after a reset return what the reset drew, the same on every read, with
bits 1 and 11 to 31 clear. -/
def Obligations.ReadsAfterResetReturnTheDraw : Prop :=
  ∀ (s : State) (l : List Move) (rd rd' : Fin 32), s.schedule = .reset :: l → s.cfg.implemented = true →
    s.ownCell < s.cycles.length → rd ≠ 0 → rd' ≠ 0 →
    ∃ t u v, step s = .next t ∧ exec (.csrrs rd 0x320 0) t = .next u ∧ exec (.csrrs rd' 0x320 0) u = .next v ∧
      u.readX rd = ((Config.resetInhibit s.draws s.hartNumber &&& 0x000007FC#32) |||
        (if Config.resetCy s.draws s.ownCell then 1#32 else 0#32)).setWidth 64 ∧
      v.readX rd' = u.readX rd ∧ u.readX rd &&& 0xFFFFFFFFFFFFF802#64 = 0#64

/-! ### The whole machine -/

/-- Every step keeps the invariant: registers and pc of XLEN bits, `x0` zero, the pc aligned, a legal mode, the register
within `WRITABLE_MASK` (rule R10), a cycle cell for every hart, the program text in canonical form. -/
def Obligations.EveryStepKeepsWellFormedness : Prop :=
  ∀ s t : State, s.wf → step s = .next t → t.wf

/-- Rules R104 and R108: in one step, the register of a hart changes only by a reset or by an instruction that
writes `0x320` (not by a form that suppresses the write), and of a hart that is not the one executing it, only `CY`
changes, and only if it shares that hart's cell. -/
def Obligations.OnlyWritesAndResetChangeTheRegister : Prop :=
  ∀ (s t : State) (h : Nat), step s = .next t → h < s.harts.length → t.registerOf h ≠ s.registerOf h →
    (∃ l, s.schedule = .reset :: l) ∨
    (∃ i, s.runs i ∧ WritesInhibit i s ∧
      (h ≠ s.hartNumber → cellNumber s.cfg h = s.ownCell ∧
        ∀ n, n ≠ 0 → (t.registerOf h).getLsbD n = (s.registerOf h).getLsbD n))

/-- Rules R31 and R49: no step changes the parameters, the program text or the number of harts. -/
def Obligations.NoStepChangesParametersOrText : Prop :=
  ∀ s t : State, step s = .next t →
    t.cfg = s.cfg ∧ (∀ a, memRead t.mem a = memRead s.mem a) ∧ t.harts.length = s.harts.length

/-- Rules R28 and R88: no step but reset changes the mode of any hart. -/
def Obligations.OnlyResetChangesMode : Prop :=
  ∀ s t : State, step s = .next t → (¬ ∃ l, s.schedule = .reset :: l) →
    t.harts.map Hart.priv = s.harts.map Hart.priv

/-- Rules R81 and R86 for a whole instruction: a counter of the selected hart that the instruction does not write stands
still if it is inhibited before and after it, with `pre` if it is inhibited before it, whatever its bit is after, and
with `post` if it is inhibited after it, whatever its bit was before. -/
def Obligations.InhibitedCounterStandsStill : Prop :=
  ∀ (s t : State) (i : Instr) (c : Counter), exec i s = .next t → ¬ WritesCounter i s c →
    (s.inhibited c = true → t.inhibited c = true → t.count c = s.count c) ∧
    (s.cfg.inhibitSample = .pre → s.inhibited c = true → t.count c = s.count c) ∧
    (s.cfg.inhibitSample = .post → t.inhibited c = true → t.count c = s.count c)
end

