-- ==== Sys2Proof/Laws/Bits.lean ====
section
/-! SUPPORT. Lemmas about the XLEN view, the masks and the numbering of the counters. -/

namespace Sys2Proof.Machine

@[simp] theorem truncX_truncX (l : Xlen) (v : DWord) : truncX l (truncX l v) = truncX l v := by
  cases l <;> simp [truncX]

@[simp] theorem truncX_zero (l : Xlen) : truncX l 0#64 = 0#64 := by
  cases l <;> rfl

/-- A 32-bit value is an XLEN-bit value for either XLEN. -/
@[simp] theorem truncX_setWidth (l : Xlen) (v : Word) : truncX l (v.setWidth 64) = v.setWidth 64 := by
  cases l
  · simp [truncX]
  · rfl

theorem truncX_mod4 (l : Xlen) (v : DWord) : (truncX l v).toNat % 4 = v.toNat % 4 := by
  cases l
  · simp only [truncX, BitVec.toNat_setWidth]; omega
  · rfl

/-- The low 32 bits are the same in the XLEN view. -/
@[simp] theorem setWidth_truncX (l : Xlen) (v : DWord) : (truncX l v).setWidth 32 = v.setWidth 32 := by
  cases l
  · simp [truncX]
  · rfl

theorem ownMask_getLsbD (n : Nat) : ownMask.getLsbD n = decide (n = 2 ∨ (3 ≤ n ∧ n ≤ 10)) := by
  by_cases h : n < 32
  · interval_cases n <;> rfl
  · rw [BitVec.getLsbD_of_ge _ _ (by omega)]
    simp only [false_eq_decide_iff]; omega

theorem writableMask_getLsbD (n : Nat) :
    writableMask.getLsbD n = decide (n = 0 ∨ n = 2 ∨ (3 ≤ n ∧ n ≤ 10)) := by
  by_cases h : n < 32
  · interval_cases n <;> rfl
  · rw [BitVec.getLsbD_of_ge _ _ (by omega)]
    simp only [false_eq_decide_iff]; omega

theorem legalize_getLsbD (v : DWord) (n : Nat) :
    (legalize v).getLsbD n = (v.getLsbD n && decide (n = 0 ∨ n = 2 ∨ (3 ≤ n ∧ n ≤ 10))) := by
  rw [legalize, BitVec.getLsbD_and, writableMask_getLsbD, BitVec.getLsbD_setWidth]
  by_cases h : n < 32
  · simp [h]
  · have : ¬ (n = 0 ∨ n = 2 ∨ (3 ≤ n ∧ n ≤ 10)) := by omega
    simp [this]

theorem counterNumber_lt (c : Counter) : counterNumber c < 11 := by
  cases c <;> simp only [counterNumber] <;> omega

theorem counterNumber_injective {c d : Counter} (h : counterNumber c = counterNumber d) : c = d := by
  cases c <;> cases d <;> simp only [counterNumber] at h <;> first | rfl | omega | (congr 1; omega)

theorem counter_mem_allCounters (c : Counter) : c ∈ allCounters := by
  cases c with
  | mcycle => simp [allCounters]
  | minstret => simp [allCounters]
  | mhpmcounter i => fin_cases i <;> simp [allCounters]

theorem allCounters_nodup : allCounters.Nodup := by decide

end Sys2Proof.Machine
end

