-- ==== Sys2Proof/Laws/State.lean ====
section
/-! SUPPORT. One lemma per field per update of a hart and of the state, so that no later proof unfolds a record update. -/

namespace Sys2Proof.Machine

@[simp] theorem Hart.withX_x (h : Hart) (v : Vector DWord 32) : (h.withX v).x = v := rfl
@[simp] theorem Hart.withX_pc (h : Hart) (v : Vector DWord 32) : (h.withX v).pc = h.pc := rfl
@[simp] theorem Hart.withX_priv (h : Hart) (v : Vector DWord 32) : (h.withX v).priv = h.priv := rfl
@[simp] theorem Hart.withX_inhibit (h : Hart) (v : Vector DWord 32) : (h.withX v).inhibit = h.inhibit := rfl
@[simp] theorem Hart.withX_minstret (h : Hart) (v : Vector DWord 32) : (h.withX v).minstret = h.minstret := rfl
@[simp] theorem Hart.withX_hpm (h : Hart) (v : Vector DWord 32) : (h.withX v).hpm = h.hpm := rfl

@[simp] theorem Hart.withPc_x (h : Hart) (v : DWord) : (h.withPc v).x = h.x := rfl
@[simp] theorem Hart.withPc_pc (h : Hart) (v : DWord) : (h.withPc v).pc = v := rfl
@[simp] theorem Hart.withPc_priv (h : Hart) (v : DWord) : (h.withPc v).priv = h.priv := rfl
@[simp] theorem Hart.withPc_inhibit (h : Hart) (v : DWord) : (h.withPc v).inhibit = h.inhibit := rfl
@[simp] theorem Hart.withPc_minstret (h : Hart) (v : DWord) : (h.withPc v).minstret = h.minstret := rfl
@[simp] theorem Hart.withPc_hpm (h : Hart) (v : DWord) : (h.withPc v).hpm = h.hpm := rfl

@[simp] theorem Hart.withInhibit_x (h : Hart) (v : Word) : (h.withInhibit v).x = h.x := rfl
@[simp] theorem Hart.withInhibit_pc (h : Hart) (v : Word) : (h.withInhibit v).pc = h.pc := rfl
@[simp] theorem Hart.withInhibit_priv (h : Hart) (v : Word) : (h.withInhibit v).priv = h.priv := rfl
@[simp] theorem Hart.withInhibit_inhibit (h : Hart) (v : Word) : (h.withInhibit v).inhibit = v := rfl
@[simp] theorem Hart.withInhibit_minstret (h : Hart) (v : Word) : (h.withInhibit v).minstret = h.minstret := rfl
@[simp] theorem Hart.withInhibit_hpm (h : Hart) (v : Word) : (h.withInhibit v).hpm = h.hpm := rfl

@[simp] theorem Hart.withMinstret_x (h : Hart) (v : DWord) : (h.withMinstret v).x = h.x := rfl
@[simp] theorem Hart.withMinstret_pc (h : Hart) (v : DWord) : (h.withMinstret v).pc = h.pc := rfl
@[simp] theorem Hart.withMinstret_priv (h : Hart) (v : DWord) : (h.withMinstret v).priv = h.priv := rfl
@[simp] theorem Hart.withMinstret_inhibit (h : Hart) (v : DWord) : (h.withMinstret v).inhibit = h.inhibit := rfl
@[simp] theorem Hart.withMinstret_minstret (h : Hart) (v : DWord) : (h.withMinstret v).minstret = v := rfl
@[simp] theorem Hart.withMinstret_hpm (h : Hart) (v : DWord) : (h.withMinstret v).hpm = h.hpm := rfl

@[simp] theorem Hart.withHpm_x (h : Hart) (v : Vector DWord 8) : (h.withHpm v).x = h.x := rfl
@[simp] theorem Hart.withHpm_pc (h : Hart) (v : Vector DWord 8) : (h.withHpm v).pc = h.pc := rfl
@[simp] theorem Hart.withHpm_priv (h : Hart) (v : Vector DWord 8) : (h.withHpm v).priv = h.priv := rfl
@[simp] theorem Hart.withHpm_inhibit (h : Hart) (v : Vector DWord 8) : (h.withHpm v).inhibit = h.inhibit := rfl
@[simp] theorem Hart.withHpm_minstret (h : Hart) (v : Vector DWord 8) : (h.withHpm v).minstret = h.minstret := rfl
@[simp] theorem Hart.withHpm_hpm (h : Hart) (v : Vector DWord 8) : (h.withHpm v).hpm = v := rfl

@[simp] theorem State.withHart_cfg (s : State) (v : Hart) : (s.withHart v).cfg = s.cfg := rfl
@[simp] theorem State.withHart_left (s : State) (v : Hart) : (s.withHart v).left = s.left := rfl
@[simp] theorem State.withHart_hart (s : State) (v : Hart) : (s.withHart v).hart = v := rfl
@[simp] theorem State.withHart_right (s : State) (v : Hart) : (s.withHart v).right = s.right := rfl
@[simp] theorem State.withHart_cycles (s : State) (v : Hart) : (s.withHart v).cycles = s.cycles := rfl
@[simp] theorem State.withHart_mem (s : State) (v : Hart) : (s.withHart v).mem = s.mem := rfl
@[simp] theorem State.withHart_schedule (s : State) (v : Hart) : (s.withHart v).schedule = s.schedule := rfl
@[simp] theorem State.withHart_draws (s : State) (v : Hart) : (s.withHart v).draws = s.draws := rfl

@[simp] theorem State.withCycles_cfg (s : State) (v : List CycleCell) : (s.withCycles v).cfg = s.cfg := rfl
@[simp] theorem State.withCycles_left (s : State) (v : List CycleCell) : (s.withCycles v).left = s.left := rfl
@[simp] theorem State.withCycles_hart (s : State) (v : List CycleCell) : (s.withCycles v).hart = s.hart := rfl
@[simp] theorem State.withCycles_right (s : State) (v : List CycleCell) : (s.withCycles v).right = s.right := rfl
@[simp] theorem State.withCycles_cycles (s : State) (v : List CycleCell) : (s.withCycles v).cycles = v := rfl
@[simp] theorem State.withCycles_mem (s : State) (v : List CycleCell) : (s.withCycles v).mem = s.mem := rfl
@[simp] theorem State.withCycles_schedule (s : State) (v : List CycleCell) : (s.withCycles v).schedule = s.schedule := rfl
@[simp] theorem State.withCycles_draws (s : State) (v : List CycleCell) : (s.withCycles v).draws = s.draws := rfl

@[simp] theorem State.withMem_cfg (s : State) (v : Memory) : (s.withMem v).cfg = s.cfg := rfl
@[simp] theorem State.withMem_left (s : State) (v : Memory) : (s.withMem v).left = s.left := rfl
@[simp] theorem State.withMem_hart (s : State) (v : Memory) : (s.withMem v).hart = s.hart := rfl
@[simp] theorem State.withMem_right (s : State) (v : Memory) : (s.withMem v).right = s.right := rfl
@[simp] theorem State.withMem_cycles (s : State) (v : Memory) : (s.withMem v).cycles = s.cycles := rfl
@[simp] theorem State.withMem_mem (s : State) (v : Memory) : (s.withMem v).mem = v := rfl
@[simp] theorem State.withMem_schedule (s : State) (v : Memory) : (s.withMem v).schedule = s.schedule := rfl
@[simp] theorem State.withMem_draws (s : State) (v : Memory) : (s.withMem v).draws = s.draws := rfl

@[simp] theorem State.withSchedule_cfg (s : State) (v : List Move) : (s.withSchedule v).cfg = s.cfg := rfl
@[simp] theorem State.withSchedule_left (s : State) (v : List Move) : (s.withSchedule v).left = s.left := rfl
@[simp] theorem State.withSchedule_hart (s : State) (v : List Move) : (s.withSchedule v).hart = s.hart := rfl
@[simp] theorem State.withSchedule_right (s : State) (v : List Move) : (s.withSchedule v).right = s.right := rfl
@[simp] theorem State.withSchedule_cycles (s : State) (v : List Move) : (s.withSchedule v).cycles = s.cycles := rfl
@[simp] theorem State.withSchedule_mem (s : State) (v : List Move) : (s.withSchedule v).mem = s.mem := rfl
@[simp] theorem State.withSchedule_schedule (s : State) (v : List Move) : (s.withSchedule v).schedule = v := rfl
@[simp] theorem State.withSchedule_draws (s : State) (v : List Move) : (s.withSchedule v).draws = s.draws := rfl

@[simp] theorem State.withDraws_cfg (s : State) (v : Nat) : (s.withDraws v).cfg = s.cfg := rfl
@[simp] theorem State.withDraws_left (s : State) (v : Nat) : (s.withDraws v).left = s.left := rfl
@[simp] theorem State.withDraws_hart (s : State) (v : Nat) : (s.withDraws v).hart = s.hart := rfl
@[simp] theorem State.withDraws_right (s : State) (v : Nat) : (s.withDraws v).right = s.right := rfl
@[simp] theorem State.withDraws_cycles (s : State) (v : Nat) : (s.withDraws v).cycles = s.cycles := rfl
@[simp] theorem State.withDraws_mem (s : State) (v : Nat) : (s.withDraws v).mem = s.mem := rfl
@[simp] theorem State.withDraws_schedule (s : State) (v : Nat) : (s.withDraws v).schedule = s.schedule := rfl
@[simp] theorem State.withDraws_draws (s : State) (v : Nat) : (s.withDraws v).draws = v := rfl

@[simp] theorem State.withHarts_cfg (s : State) (l : List Hart) (h : Hart) (r : List Hart) : (s.withHarts l h r).cfg = s.cfg := rfl
@[simp] theorem State.withHarts_left (s : State) (l : List Hart) (h : Hart) (r : List Hart) : (s.withHarts l h r).left = l := rfl
@[simp] theorem State.withHarts_hart (s : State) (l : List Hart) (h : Hart) (r : List Hart) : (s.withHarts l h r).hart = h := rfl
@[simp] theorem State.withHarts_right (s : State) (l : List Hart) (h : Hart) (r : List Hart) : (s.withHarts l h r).right = r := rfl
@[simp] theorem State.withHarts_cycles (s : State) (l : List Hart) (h : Hart) (r : List Hart) : (s.withHarts l h r).cycles = s.cycles := rfl
@[simp] theorem State.withHarts_mem (s : State) (l : List Hart) (h : Hart) (r : List Hart) : (s.withHarts l h r).mem = s.mem := rfl
@[simp] theorem State.withHarts_schedule (s : State) (l : List Hart) (h : Hart) (r : List Hart) : (s.withHarts l h r).schedule = s.schedule := rfl
@[simp] theorem State.withHarts_draws (s : State) (l : List Hart) (h : Hart) (r : List Hart) : (s.withHarts l h r).draws = s.draws := rfl

end Sys2Proof.Machine
end

