-- ==== Sys2Proof/Laws/Ops.lean ====
section
/-! SUPPORT. General registers, the pc, the cycle cells and the register: a read after a write, and what each write
leaves alone. -/

namespace Sys2Proof.Machine

/-! ### Cells -/

theorem putCell_getD_same (l : List CycleCell) (j : Nat) (c d : CycleCell) : (putCell l j c).getD j d = c := by
  induction l generalizing j with
  | nil => induction j with
    | zero => rfl
    | succ j ih => simpa [putCell] using ih
  | cons e l ih => cases j with
    | zero => rfl
    | succ j => simpa [putCell] using ih j

theorem putCell_getD_ne (l : List CycleCell) {j k : Nat} (c : CycleCell) (h : k ≠ j) :
    (putCell l j c).getD k CycleCell.blank = l.getD k CycleCell.blank := by
  induction l generalizing j k with
  | nil =>
    induction j generalizing k with
    | zero => cases k <;> simp_all [putCell]
    | succ j ih =>
      cases k with
      | zero => simp [putCell]
      | succ k => simpa [putCell] using ih (k := k) (by omega)
  | cons e l ih =>
    cases j with
    | zero => cases k <;> simp_all [putCell]
    | succ j =>
      cases k with
      | zero => simp [putCell]
      | succ k => simpa [putCell] using ih (j := j) (k := k) (by omega)

theorem putCell_length (l : List CycleCell) (j : Nat) (c : CycleCell) : l.length ≤ (putCell l j c).length := by
  induction l generalizing j with
  | nil => simp
  | cons e l ih => cases j with
    | zero => simp [putCell]
    | succ j => simpa [putCell] using ih j

theorem mem_putCell {l : List CycleCell} {j : Nat} {c x : CycleCell} (h : x ∈ putCell l j c) :
    x = c ∨ x = CycleCell.blank ∨ x ∈ l := by
  induction l generalizing j with
  | nil => induction j with
    | zero => simp_all [putCell]
    | succ j ih =>
      simp only [putCell, List.mem_cons] at h
      rcases h with h | h
      · exact .inr (.inl h)
      · exact ih h
  | cons e l ih => cases j with
    | zero =>
      simp only [putCell, List.mem_cons] at h
      rcases h with h | h
      · exact .inl h
      · exact .inr (.inr (List.mem_cons_of_mem _ h))
    | succ j =>
      simp only [putCell, List.mem_cons] at h
      rcases h with h | h
      · exact .inr (.inr (h ▸ List.mem_cons_self ..))
      · exact (ih h).imp_right (.imp_right (List.mem_cons_of_mem _))

@[simp] theorem State.withCycles_cellAt (s : State) (l : List CycleCell) (j : Nat) :
    (s.withCycles l).cellAt j = l.getD j CycleCell.blank := rfl
@[simp] theorem State.withHart_cellAt (s : State) (h : Hart) (j : Nat) : (s.withHart h).cellAt j = s.cellAt j := rfl
@[simp] theorem State.withHart_cycle (s : State) (h : Hart) : (s.withHart h).cycle = s.cycle := rfl
@[simp] theorem State.withHart_ownCell (s : State) (h : Hart) : (s.withHart h).ownCell = s.ownCell := rfl
@[simp] theorem State.withDraws_cycle (s : State) (n : Nat) : (s.withDraws n).cycle = s.cycle := rfl
@[simp] theorem State.withDraws_cellAt (s : State) (n j : Nat) : (s.withDraws n).cellAt j = s.cellAt j := rfl

@[simp] theorem State.setCycle_cfg (s : State) (c : CycleCell) : (s.setCycle c).cfg = s.cfg := rfl
@[simp] theorem State.setCycle_left (s : State) (c : CycleCell) : (s.setCycle c).left = s.left := rfl
@[simp] theorem State.setCycle_hart (s : State) (c : CycleCell) : (s.setCycle c).hart = s.hart := rfl
@[simp] theorem State.setCycle_right (s : State) (c : CycleCell) : (s.setCycle c).right = s.right := rfl
@[simp] theorem State.setCycle_mem (s : State) (c : CycleCell) : (s.setCycle c).mem = s.mem := rfl
@[simp] theorem State.setCycle_schedule (s : State) (c : CycleCell) : (s.setCycle c).schedule = s.schedule := rfl
@[simp] theorem State.setCycle_draws (s : State) (c : CycleCell) : (s.setCycle c).draws = s.draws := rfl
@[simp] theorem State.setCycle_ownCell (s : State) (c : CycleCell) : (s.setCycle c).ownCell = s.ownCell := rfl

@[simp] theorem State.setCycle_cycle (s : State) (c : CycleCell) : (s.setCycle c).cycle = c :=
  putCell_getD_same ..

theorem State.setCycle_cellAt_ne (s : State) (c : CycleCell) {j : Nat} (h : j ≠ s.ownCell) :
    (s.setCycle c).cellAt j = s.cellAt j := putCell_getD_ne _ _ h

/-! ### General registers and pc -/

@[simp] theorem State.readX_zero (s : State) : s.readX 0 = 0#64 := rfl

@[simp] theorem State.truncX_readX (s : State) (r : Fin 32) : truncX s.cfg.xlen (s.readX r) = s.readX r := by
  unfold State.readX; split <;> simp

/-- `readX` looks at nothing but XLEN and the registers. -/
theorem State.readX_congr {s t : State} (hc : t.cfg = s.cfg) (hx : t.hart.x = s.hart.x) (r : Fin 32) :
    t.readX r = s.readX r := by
  unfold State.readX; rw [hc, hx]

theorem State.pcValue_congr {s t : State} (hc : t.cfg = s.cfg) (hp : t.hart.pc = s.hart.pc) :
    t.pcValue = s.pcValue := by
  unfold State.pcValue; rw [hc, hp]

theorem State.writeX_cases (s : State) (r : Fin 32) (v : DWord) :
    (r = 0 ∧ s.writeX r v = s) ∨
      (r ≠ 0 ∧ s.writeX r v = s.withHart (s.hart.withX (s.hart.x.set r (truncX s.cfg.xlen v)))) := by
  unfold State.writeX; split <;> simp_all

theorem State.readX_writeX_same (s : State) (r : Fin 32) (v : DWord) :
    (s.writeX r v).readX r = if r = 0 then 0#64 else truncX s.cfg.xlen v := by
  unfold State.writeX
  split
  · subst_vars; simp
  · simp [State.readX, *]

theorem State.readX_writeX_ne (s : State) {r q : Fin 32} (v : DWord) (h : q ≠ r) :
    (s.writeX r v).readX q = s.readX q := by
  unfold State.writeX
  split
  · rfl
  · have hv : (r : Nat) ≠ q := fun e => h (Fin.ext e.symm)
    simp [State.readX, Vector.getElem_set_ne, hv]

/-! ### The register -/

/-- `inhibitValue` looks at nothing but `IMPLEMENTED`, the hart's own bits and the cell's `CY`. -/
theorem State.inhibitValue_congr {s t : State} (hc : t.cfg = s.cfg) (hi : t.hart.inhibit = s.hart.inhibit)
    (hy : t.cycle.cy = s.cycle.cy) : t.inhibitValue = s.inhibitValue := by
  unfold State.inhibitValue; rw [hc, hi, hy]

/-- Every bit of the register as a hart sees it (rules R15, R19, R21, R29). -/
theorem State.inhibitValue_getLsbD (s : State) (n : Nat) :
    s.inhibitValue.getLsbD n = (s.cfg.implemented &&
      (if n = 0 then s.cycle.cy else s.hart.inhibit.getLsbD n && decide (n = 2 ∨ (3 ≤ n ∧ n ≤ 10)))) := by
  unfold State.inhibitValue
  split
  · rename_i hi
    rw [BitVec.getLsbD_or, BitVec.getLsbD_and, ownMask_getLsbD, hi]
    by_cases hn : n = 0
    · subst hn; cases s.cycle.cy <;> simp
    · cases s.cycle.cy <;> simp [hn, BitVec.getLsbD_one]
  · simp_all

/-- The register is always within `WRITABLE_MASK` (rule R10). -/
theorem State.inhibitValue_and_writableMask (s : State) : s.inhibitValue &&& writableMask = s.inhibitValue := by
  refine BitVec.eq_of_getLsbD_eq fun n _ => ?_
  rw [BitVec.getLsbD_and, writableMask_getLsbD, s.inhibitValue_getLsbD n]
  by_cases h0 : n = 0
  · subst h0; simp
  · by_cases h : n = 2 ∨ (3 ≤ n ∧ n ≤ 10) <;> simp [h0, h]

/-- What a write leaves in the register: `legalize` of the written value (rules R62, R63). -/
theorem State.inhibitValue_writeInhibit (s : State) (v : DWord) (h : s.cfg.implemented = true) :
    (s.writeInhibit v).inhibitValue = legalize v := by
  refine BitVec.eq_of_getLsbD_eq fun n _ => ?_
  simp only [State.inhibitValue_getLsbD, State.writeInhibit, h, if_true, State.setCycle_cfg, State.withHart_cfg,
    State.setCycle_cycle, State.setCycle_hart, State.withHart_hart, Hart.withInhibit_inhibit, BitVec.getLsbD_and,
    ownMask_getLsbD, legalize_getLsbD, Bool.true_and]
  by_cases h0 : n = 0
  · subst h0; simp
  · by_cases h2 : n = 2 ∨ (3 ≤ n ∧ n ≤ 10) <;> simp [h0, h2]

end Sys2Proof.Machine
end

