-- ==== Sys2Proof/Laws/Counters.lean ====
section
/-! SUPPORT. Counters: a read after a write, what a counter write leaves alone, ticks and own ticks. -/

namespace Sys2Proof.Machine

/-- `t` differs from `s` in counter values only. -/
structure SameButCounts (s t : State) : Prop where
  cfg : t.cfg = s.cfg
  left : t.left = s.left
  right : t.right = s.right
  mem : t.mem = s.mem
  schedule : t.schedule = s.schedule
  draws : t.draws = s.draws
  x : t.hart.x = s.hart.x
  pc : t.hart.pc = s.hart.pc
  priv : t.hart.priv = s.hart.priv
  inhibit : t.hart.inhibit = s.hart.inhibit
  cy : t.cycle.cy = s.cycle.cy
  cells : ∀ j, j ≠ s.ownCell → t.cellAt j = s.cellAt j

theorem State.ownCell_congr {s t : State} (hc : t.cfg = s.cfg) (hl : t.left = s.left) : t.ownCell = s.ownCell := by
  unfold State.ownCell State.hartNumber; rw [hc, hl]

theorem SameButCounts.refl (s : State) : SameButCounts s s := by constructor <;> simp

theorem SameButCounts.trans {s t u : State} (h : SameButCounts s t) (k : SameButCounts t u) : SameButCounts s u where
  cfg := k.cfg.trans h.cfg
  left := k.left.trans h.left
  right := k.right.trans h.right
  mem := k.mem.trans h.mem
  schedule := k.schedule.trans h.schedule
  draws := k.draws.trans h.draws
  x := k.x.trans h.x
  pc := k.pc.trans h.pc
  priv := k.priv.trans h.priv
  inhibit := k.inhibit.trans h.inhibit
  cy := k.cy.trans h.cy
  cells j hj := (k.cells j (by rwa [State.ownCell_congr h.cfg h.left])).trans (h.cells j hj)

theorem SameButCounts.inhibitValue {s t : State} (h : SameButCounts s t) : t.inhibitValue = s.inhibitValue :=
  State.inhibitValue_congr h.cfg h.inhibit h.cy

theorem SameButCounts.inhibited {s t : State} (h : SameButCounts s t) (c : Counter) :
    t.inhibited c = s.inhibited c := by
  unfold State.inhibited; rw [h.inhibitValue]

/-! ### `setCount` -/

theorem State.setCount_sameButCounts (s : State) (c : Counter) (v : DWord) : SameButCounts s (s.setCount c v) := by
  cases c with
  | mcycle => constructor <;> simp +contextual [State.setCount, State.setCycle_cellAt_ne]
  | minstret => constructor <;> simp [State.setCount]
  | mhpmcounter i =>
    unfold State.setCount
    by_cases h : s.cfg.hpmImplemented[i] = true
    · constructor <;> simp [h]
    · simp only [h]; exact .refl s

theorem State.count_of_not_exists (s : State) (c : Counter) (h : counterExists s.cfg c = false) : s.count c = 0#64 := by
  cases c <;> simp_all [State.count, counterExists]

theorem State.count_setCount_same (s : State) (c : Counter) (v : DWord) (h : counterExists s.cfg c = true) :
    (s.setCount c v).count c = v := by
  cases c <;> simp_all [State.count, State.setCount, counterExists]

/-- A write to a counter that does not exist is ignored (rule R25). -/
theorem State.setCount_of_not_exists (s : State) (c : Counter) (v : DWord) (h : counterExists s.cfg c = false) :
    s.setCount c v = s := by
  cases c <;> simp_all [State.setCount, counterExists]

theorem State.count_setCount_ne (s : State) {c d : Counter} (v : DWord) (h : d ≠ c) :
    (s.setCount c v).count d = s.count d := by
  cases c with
  | mcycle => cases d <;> first | rfl | exact absurd rfl h
  | minstret => cases d <;> first | rfl | exact absurd rfl h
  | mhpmcounter i =>
    by_cases hi : s.cfg.hpmImplemented[i] = true
    · cases d with
      | mcycle => simp [State.count, State.setCount, hi]
      | minstret => simp [State.count, State.setCount, hi]
      | mhpmcounter j =>
        have hij : (i : Nat) ≠ j := fun e => h (by rw [Fin.ext e])
        simp [State.count, State.setCount, hi, Vector.getElem_set_ne, hij]
    · rw [State.setCount_of_not_exists _ _ _ (by simpa [counterExists] using hi)]

/-! ### Ticks -/

theorem State.tick_sameButCounts (s : State) (c : Counter) (k : Nat) : SameButCounts s (s.tick c k) := by
  unfold State.tick
  split
  · exact .refl s
  · exact s.setCount_sameButCounts ..

theorem State.count_tick_ne (s : State) {c d : Counter} (k : Nat) (h : d ≠ c) : (s.tick c k).count d = s.count d := by
  unfold State.tick
  split
  · rfl
  · exact s.count_setCount_ne _ h

/-- The gated increment of a counter that exists (rule R81). -/
theorem State.count_tick_same (s : State) (c : Counter) (k : Nat) (h : counterExists s.cfg c = true) :
    (s.tick c k).count c = if s.inhibited c then s.count c else s.count c + BitVec.ofNat 64 k := by
  unfold State.tick
  split
  · rfl
  · exact s.count_setCount_same _ _ h

theorem State.ownTick_sameButCounts (old new : Word) (w : Option Counter) (s : State) (c : Counter) :
    SameButCounts s (State.ownTick old new w s c) := by
  unfold State.ownTick
  split
  · exact .refl s
  · exact s.setCount_sameButCounts ..

theorem State.count_ownTick_ne (old new : Word) (w : Option Counter) (s : State) {c d : Counter} (h : d ≠ c) :
    (State.ownTick old new w s c).count d = s.count d := by
  unfold State.ownTick
  split
  · rfl
  · exact s.count_setCount_ne _ h

theorem State.foldl_ownTick_sameButCounts (old new : Word) (w : Option Counter) (l : List Counter) (s : State) :
    SameButCounts s (l.foldl (State.ownTick old new w) s) := by
  induction l generalizing s with
  | nil => exact .refl s
  | cons c l ih => exact (State.ownTick_sameButCounts old new w s c).trans (ih _)

theorem State.ownTickAll_sameButCounts (s : State) (old new : Word) (w : Option Counter) :
    SameButCounts s (s.ownTickAll old new w) :=
  State.foldl_ownTick_sameButCounts ..

/-- What the own ticks make of one counter depends on what they found in it alone. -/
theorem State.count_foldl_ownTick (old new : Word) (w : Option Counter) (l : List Counter) (hl : l.Nodup) (s : State)
    (c : Counter) : (l.foldl (State.ownTick old new w) s).count c =
      if c ∈ l then (State.ownTick old new w s c).count c else s.count c := by
  induction l generalizing s with
  | nil => simp
  | cons d l ih =>
    obtain ⟨hd, hl⟩ := List.nodup_cons.1 hl
    rw [List.foldl_cons, ih hl]
    by_cases hc : c = d
    · subst hc; simp [hd]
    · have hk := State.ownTick_sameButCounts old new w s d
      have hcount := State.count_ownTick_ne old new w s hc
      have : (State.ownTick old new w (State.ownTick old new w s d) c).count c =
          (State.ownTick old new w s c).count c := by
        unfold State.ownTick at hk hcount ⊢
        split
        · exact hcount
        · generalize hu : (if w = some d then s else _) = u at *
          by_cases he : counterExists s.cfg c = true
          · rw [State.count_setCount_same _ _ _ he, State.count_setCount_same _ _ _ (by rw [hk.cfg]; exact he),
              hcount, hk.cfg, hk.draws]
          · have he : counterExists s.cfg c = false := by simpa using he
            rw [State.setCount_of_not_exists _ _ _ he, State.setCount_of_not_exists _ _ _ (by rw [hk.cfg]; exact he),
              hcount]
      simp [hc, this, hcount]

/-- The own ticks of an instruction: the written counter keeps the written value (rule R87), every other counter that
exists advances by its own ticks (rules R80, R81, R86). -/
theorem State.count_ownTickAll (s : State) (old new : Word) (w : Option Counter) (c : Counter) :
    (s.ownTickAll old new w).count c =
      if w = some c ∨ counterExists s.cfg c = false then s.count c
      else s.count c +
        BitVec.ofNat 64 (ownAdvance s.cfg.inhibitSample s.draws c (inhibitBit old c) (inhibitBit new c)) := by
  unfold State.ownTickAll
  rw [State.count_foldl_ownTick _ _ _ _ allCounters_nodup, if_pos (counter_mem_allCounters c)]
  unfold State.ownTick
  by_cases hw : w = some c
  · simp [hw]
  · by_cases he : counterExists s.cfg c = true
    · simp [hw, he, State.count_setCount_same]
    · have he : counterExists s.cfg c = false := by simpa using he
      simp [hw, he, State.setCount_of_not_exists]

/-- A counter inhibited before and after the access does not advance by the instruction's own ticks. -/
theorem ownAdvance_inhibited (m : InhibitSample) (n : Nat) (c : Counter) : ownAdvance m n c true true = 0 := by
  cases c <;> simp [ownAdvance, retirementSees]

/-- With `pre` a counter inhibited before the access does not advance by the instruction's own ticks (rule R86). -/
theorem ownAdvance_pre_inhibited (n : Nat) (c : Counter) (new : Bool) : ownAdvance .pre n c true new = 0 := by
  cases c <;> cases new <;> simp [ownAdvance, retirementSees, ownTicks]

/-- With `post` a counter inhibited after the access does not advance by the instruction's own ticks (rule R86). -/
theorem ownAdvance_post_inhibited (n : Nat) (c : Counter) (old : Bool) : ownAdvance .post n c old true = 0 := by
  cases c <;> cases old <;> simp [ownAdvance, retirementSees, ownTicks]

/-- With `pre` a retirement is counted when `IR` was clear before the access (rule R86). -/
theorem ownAdvance_pre_minstret (n : Nat) (new : Bool) : ownAdvance .pre n .minstret false new = 1 := by
  cases new <;> simp [ownAdvance, retirementSees]

/-- With `post` a retirement is counted when `IR` is clear after the access (rule R86). -/
theorem ownAdvance_post_minstret (n : Nat) (old : Bool) : ownAdvance .post n .minstret old false = 1 := by
  cases old <;> simp [ownAdvance, retirementSees]

/-- A retirement is counted exactly once while `IR` is clear (rule R80). -/
theorem ownAdvance_minstret_clear (m : InhibitSample) (n : Nat) : ownAdvance m n .minstret false false = 1 := by
  simp [ownAdvance, retirementSees]

theorem ownAdvance_minstret_le (m : InhibitSample) (n : Nat) (old new : Bool) :
    ownAdvance m n .minstret old new ≤ 1 := by
  simp only [ownAdvance]; split <;> simp

end Sys2Proof.Machine
end

