-- ==== Sys2Proof/Laws/Csr.lean ====
section
/-! SUPPORT. What one CSR instruction does, said once: `State.csrInstr_completes`, `State.csrInstr_illegal` and
`State.csrInstr_refused` say when it answers what, and `AccessResult` says everything the next state holds. -/

namespace Sys2Proof.Machine

/-! ### The parts of an access -/

/-- `t` differs from `s` in CSR values only: registers, pc, mode and everything outside the hart stay. -/
structure SameButCsrs (s t : State) : Prop where
  cfg : t.cfg = s.cfg
  left : t.left = s.left
  right : t.right = s.right
  mem : t.mem = s.mem
  schedule : t.schedule = s.schedule
  draws : t.draws = s.draws
  x : t.hart.x = s.hart.x
  pc : t.hart.pc = s.hart.pc
  priv : t.hart.priv = s.hart.priv
  cells : ∀ j, j ≠ s.ownCell → t.cellAt j = s.cellAt j

theorem SameButCounts.toCsrs {s t : State} (h : SameButCounts s t) : SameButCsrs s t :=
  ⟨h.cfg, h.left, h.right, h.mem, h.schedule, h.draws, h.x, h.pc, h.priv, h.cells⟩

theorem State.writeInhibit_sameButCsrs (s : State) (v : DWord) : SameButCsrs s (s.writeInhibit v) := by
  unfold State.writeInhibit
  split
  · constructor
    case cells => exact fun j hj => State.setCycle_cellAt_ne _ _ hj
    all_goals rfl
  · exact (SameButCounts.refl s).toCsrs

/-- Writing the register changes no counter (rule R45). -/
theorem State.count_writeInhibit (s : State) (v : DWord) (d : Counter) : (s.writeInhibit v).count d = s.count d := by
  unfold State.writeInhibit
  split
  · cases d with
    | mcycle => simp [State.count]
    | minstret => rfl
    | mhpmcounter i => rfl
  · rfl

theorem State.writeCsr_sameButCsrs (s : State) (c : Csr) (v : DWord) : SameButCsrs s (s.writeCsr c v) := by
  cases c with
  | inhibit => exact s.writeInhibit_sameButCsrs v
  | low c => exact (s.setCount_sameButCounts ..).toCsrs
  | high c => exact (s.setCount_sameButCounts ..).toCsrs
  | absent => exact (SameButCounts.refl s).toCsrs

theorem State.count_writeCsr_ne (s : State) (c : Csr) (v : DWord) (d : Counter) (h : c.counter? ≠ some d) :
    (s.writeCsr c v).count d = s.count d := by
  cases c with
  | inhibit => exact s.count_writeInhibit v d
  | low c => exact s.count_setCount_ne _ (by simpa [Csr.counter?, eq_comm] using h)
  | high c => exact s.count_setCount_ne _ (by simpa [Csr.counter?, eq_comm] using h)
  | absent => rfl

theorem State.inhibitValue_writeCsr (s : State) (c : Csr) (v : DWord) (h : c ≠ .inhibit) :
    (s.writeCsr c v).inhibitValue = s.inhibitValue := by
  cases c with
  | inhibit => exact absurd rfl h
  | low c => exact (s.setCount_sameButCounts ..).inhibitValue
  | high c => exact (s.setCount_sameButCounts ..).inhibitValue
  | absent => rfl

theorem State.ticksBeforeRead_sameButCounts (s : State) (c : Csr) : SameButCounts s (s.ticksBeforeRead c) := by
  unfold State.ticksBeforeRead
  split
  · exact .refl s
  · exact .refl s
  · exact s.tick_sameButCounts ..

/-- The ticks before a read advance only the counter that is read, not `minstret`, and not while it is inhibited. -/
theorem State.count_ticksBeforeRead (s : State) (c : Csr) (d : Counter) :
    ∃ k : Nat, (s.ticksBeforeRead c).count d = s.count d + BitVec.ofNat 64 k ∧
      (s.inhibited d = true ∨ d = .minstret ∨ c.counter? ≠ some d → k = 0) := by
  unfold State.ticksBeforeRead
  split
  · exact ⟨0, by simp, fun _ => rfl⟩
  · exact ⟨0, by simp, fun _ => rfl⟩
  · rename_i e hne he
    by_cases hd : d = e
    · subst hd
      by_cases hx : counterExists s.cfg d = true
      · rw [State.count_tick_same _ _ _ hx]
        by_cases hi : s.inhibited d = true
        · exact ⟨0, by simp [hi], fun _ => rfl⟩
        · refine ⟨_, by rw [if_neg hi], fun h => ?_⟩
          rcases h with h | h | h
          · exact absurd h hi
          · exact absurd h hne
          · exact absurd he h
      · have hx : counterExists s.cfg d = false := by simpa using hx
        refine ⟨0, ?_, fun _ => rfl⟩
        rw [State.count_of_not_exists _ _ hx, State.count_of_not_exists]
        · simp
        · rw [(s.tick_sameButCounts _ _).cfg]; exact hx
    · exact ⟨0, by simp [State.count_tick_ne _ _ hd], fun _ => rfl⟩

/-! ### The result of an access -/

/-- The value an access reads. -/
def State.accessOld (s : State) (c : Csr) : DWord := (s.ticksBeforeRead c).readCsr c

/-- The value an access writes, where it writes. -/
def State.accessNew (s : State) (c : Csr) (op : CsrOp) (src : Source) : DWord :=
  op.apply s.cfg.xlen (s.accessOld c) (src.value s)

/-- The state an access leaves, before `rd`, the pc and the own ticks. -/
def State.accessed (s : State) (c : Csr) (op : CsrOp) (src : Source) : State :=
  if op.writes src then s.writeCsr c (s.accessNew c op src) else s.ticksBeforeRead c

/-- The next state of a CSR instruction. -/
def State.csrNext (s : State) (c : Csr) (rd : Fin 32) (op : CsrOp) (src : Source) : State :=
  (s.accessCsr c rd op src).retire s.inhibitValue (writtenCounter c op src)

theorem State.accessed_sameButCsrs (s : State) (c : Csr) (op : CsrOp) (src : Source) :
    SameButCsrs s (s.accessed c op src) := by
  unfold State.accessed
  split
  · exact s.writeCsr_sameButCsrs ..
  · exact (s.ticksBeforeRead_sameButCounts c).toCsrs

theorem State.accessCsr_eq (s : State) (c : Csr) (rd : Fin 32) (op : CsrOp) (src : Source) :
    s.accessCsr c rd op src = ((s.accessed c op src).writeX rd (s.accessOld c)).advancePc := rfl

theorem State.writeX_hart (s : State) (r : Fin 32) (v : DWord) :
    ∃ x, s.writeX r v = s.withHart (s.hart.withX x) := by
  rcases s.writeX_cases r v with ⟨_, h⟩ | ⟨_, h⟩
  · exact ⟨s.hart.x, h⟩
  · exact ⟨_, h⟩

/-- Writing `rd` and moving the pc touches the registers and the pc alone. -/
theorem State.accessCsr_hart (s : State) (c : Csr) (rd : Fin 32) (op : CsrOp) (src : Source) :
    ∃ x pc, s.accessCsr c rd op src =
      (s.accessed c op src).withHart (((s.accessed c op src).hart.withX x).withPc pc) := by
  obtain ⟨x, hx⟩ := (s.accessed c op src).writeX_hart rd (s.accessOld c)
  exact ⟨x, _, by rw [State.accessCsr_eq, hx]; rfl⟩

theorem State.count_accessCsr (s : State) (c : Csr) (rd : Fin 32) (op : CsrOp) (src : Source) (d : Counter) :
    (s.accessCsr c rd op src).count d = (s.accessed c op src).count d := by
  obtain ⟨x, pc, h⟩ := s.accessCsr_hart c rd op src
  rw [h]; cases d <;> rfl

theorem State.inhibitValue_accessCsr (s : State) (c : Csr) (rd : Fin 32) (op : CsrOp) (src : Source) :
    (s.accessCsr c rd op src).inhibitValue = (s.accessed c op src).inhibitValue := by
  obtain ⟨x, pc, h⟩ := s.accessCsr_hart c rd op src
  rw [h]; rfl

/-- The own ticks and the next draw leave all but counters and the draw counter. -/
theorem State.retire_eq (s : State) (old : Word) (w : Option Counter) :
    ∃ u, SameButCounts s u ∧ s.retire old w = u.withDraws (s.draws + 1) ∧
      u = s.ownTickAll old s.inhibitValue w := by
  refine ⟨_, s.ownTickAll_sameButCounts old s.inhibitValue w, ?_, rfl⟩
  rw [State.retire]
  rw [(s.ownTickAll_sameButCounts old s.inhibitValue w).draws]

theorem State.inhibitValue_csrNext (s : State) (c : Csr) (rd : Fin 32) (op : CsrOp) (src : Source) :
    (s.csrNext c rd op src).inhibitValue = (s.accessed c op src).inhibitValue := by
  obtain ⟨u, hu, he, _⟩ := (s.accessCsr c rd op src).retire_eq s.inhibitValue (writtenCounter c op src)
  rw [State.csrNext, he]
  exact hu.inhibitValue.trans (s.inhibitValue_accessCsr ..)

theorem State.count_csrNext (s : State) (c : Csr) (rd : Fin 32) (op : CsrOp) (src : Source) (d : Counter) :
    (s.csrNext c rd op src).count d =
      if writtenCounter c op src = some d ∨ counterExists s.cfg d = false then (s.accessed c op src).count d
      else (s.accessed c op src).count d + BitVec.ofNat 64
        (ownAdvance s.cfg.inhibitSample s.draws d (s.inhibited d) ((s.csrNext c rd op src).inhibited d)) := by
  have hi : (s.csrNext c rd op src).inhibited d = inhibitBit (s.accessCsr c rd op src).inhibitValue d := by
    unfold State.inhibited; rw [s.inhibitValue_csrNext, s.inhibitValue_accessCsr]
  rw [hi]
  obtain ⟨u, hu, he, ht⟩ := (s.accessCsr c rd op src).retire_eq s.inhibitValue (writtenCounter c op src)
  have hd : (u.withDraws ((s.accessCsr c rd op src).draws + 1)).count d = u.count d := by cases d <;> rfl
  obtain ⟨x, pc, ha⟩ := s.accessCsr_hart c rd op src
  have hcfg : (s.accessCsr c rd op src).cfg = s.cfg := by rw [ha]; exact (s.accessed_sameButCsrs ..).cfg
  have hdraws : (s.accessCsr c rd op src).draws = s.draws := by rw [ha]; exact (s.accessed_sameButCsrs ..).draws
  rw [State.csrNext, he, hd, ht, State.count_ownTickAll, s.count_accessCsr, hcfg, hdraws]
  rfl

/-- An access to a counter leaves the register alone. -/
theorem inhibit_csrNext_counter (s : State) (csr : Csr) (rd : Fin 32) (op : CsrOp) (src : Source)
    (h : csr ≠ .inhibit) : (s.csrNext csr rd op src).inhibitValue = s.inhibitValue := by
  rw [State.inhibitValue_csrNext, State.accessed]
  split
  · exact s.inhibitValue_writeCsr _ _ h
  · exact (s.ticksBeforeRead_sameButCounts csr).inhibitValue

/-- A form that suppresses the write leaves the register alone. -/
theorem inhibit_csrNext_of_not_writes (s : State) (csr : Csr) (rd : Fin 32) {op : CsrOp} {src : Source}
    (h : op.writes src = false) : (s.csrNext csr rd op src).inhibitValue = s.inhibitValue := by
  rw [State.inhibitValue_csrNext, State.accessed, if_neg (by simp [h])]
  exact (s.ticksBeforeRead_sameButCounts csr).inhibitValue

/-- A counter that the access does not write advances by own ticks only. -/
theorem State.csrNext_ownTicked (s : State) (c : Csr) (rd : Fin 32) (op : CsrOp) (src : Source) (d : Counter)
    (h : writtenCounter c op src ≠ some d) : OwnTicked s (s.csrNext c rd op src) d := by
  obtain ⟨k, hk, hz⟩ : ∃ k : Nat, (s.accessed c op src).count d = s.count d + BitVec.ofNat 64 k ∧
      (s.inhibited d = true ∨ d = .minstret ∨ (s.csrNext c rd op src).inhibited d = true → k = 0) := by
    unfold State.accessed
    split
    · rename_i hw
      refine ⟨0, ?_, fun _ => rfl⟩
      rw [State.count_writeCsr_ne _ _ _ _ (by simpa [writtenCounter, hw] using h)]; simp
    · obtain ⟨k, hk, hz⟩ := s.count_ticksBeforeRead c d
      refine ⟨k, hk, fun h => ?_⟩
      rcases h with h | h | h
      · exact hz (.inl h)
      · exact hz (.inr (.inl h))
      · by_cases hc : c = .inhibit
        · exact hz (.inr (.inr (by subst hc; simp [Csr.counter?])))
        · exact hz (.inl (by rwa [State.inhibited, inhibit_csrNext_counter _ _ _ _ _ hc] at h))
  unfold OwnTicked
  rw [s.count_csrNext c rd op src d]
  by_cases hx : counterExists s.cfg d = true
  · rw [if_neg (by simp [h, hx]), hk]
    refine ⟨k + ownAdvance s.cfg.inhibitSample s.draws d (s.inhibited d) ((s.csrNext c rd op src).inhibited d),
      by rw [BitVec.ofNat_add, BitVec.add_assoc], fun h1 h2 => ?_, fun hp h1 => ?_, fun hp h2 => ?_, fun hm => ?_⟩
    · rw [hz (.inl h1), h1, h2, ownAdvance_inhibited]
    · rw [hz (.inl h1), hp, h1, ownAdvance_pre_inhibited]
    · rw [hz (.inr (.inr h2)), hp, h2, ownAdvance_post_inhibited]
    · subst hm
      rw [hz (.inr (.inl rfl))]
      refine ⟨by simpa using ownAdvance_minstret_le .., fun h1 h2 => ?_, fun hp h1 => ?_, fun hp h2 => ?_⟩
      · rw [h1, h2, ownAdvance_minstret_clear]
      · rw [hp, h1, ownAdvance_pre_minstret]
      · rw [hp, h2, ownAdvance_post_minstret]
  · have hx : counterExists s.cfg d = false := by simpa using hx
    rw [if_pos (.inr hx)]
    refine ⟨0, ?_, fun _ _ => rfl, fun _ _ => rfl, fun _ _ => rfl, fun hm => ?_⟩
    · rw [State.count_of_not_exists _ _ hx,
        State.count_of_not_exists _ _ (by rw [(s.accessed_sameButCsrs ..).cfg]; exact hx)]
      simp
    · subst hm; exact absurd hx (by simp [counterExists])

/-- The value read is an XLEN-bit value. -/
theorem State.truncX_accessOld (s : State) (c : Csr) (h : ∀ d, c = .high d → s.cfg.xlen = .x32) :
    truncX s.cfg.xlen (s.accessOld c) = s.accessOld c := by
  unfold State.accessOld
  have hcfg := (s.ticksBeforeRead_sameButCounts c).cfg
  cases c with
  | inhibit => simp [State.readCsr]
  | low d => simp [State.readCsr, hcfg]
  | high d =>
    rw [h d rfl]
    simp only [State.readCsr, truncX]
    refine BitVec.eq_of_toNat_eq ?_
    simp only [BitVec.toNat_setWidth, BitVec.toNat_ushiftRight, Nat.shiftRight_eq_div_pow]
    omega
  | absent => simp [State.readCsr]

theorem selectCsr_high {l : Xlen} {a : Nat} {d : Counter} (h : selectCsr l a = some (.high d)) : l = .x32 := by
  unfold selectCsr at h
  split at h
  · cases h
  · split at h
    · split at h <;> cases h
    · split at h
      · rename_i hl; exact hl.1
      · cases h

/-- Everything the next state of a CSR instruction holds but the accessed CSR itself: `rd`, the pc and the frame. -/
theorem State.csrNext_completes (s : State) (c : Csr) (rd : Fin 32) (op : CsrOp) (src : Source)
    (h : ∀ d, c = .high d → s.cfg.xlen = .x32) :
    Completes s (s.csrNext c rd op src) rd (s.accessOld c) (writtenCounter c op src) := by
  have ha := s.accessed_sameButCsrs c op src
  obtain ⟨u, hu, he, _⟩ := (s.accessCsr c rd op src).retire_eq s.inhibitValue (writtenCounter c op src)
  have hn : s.csrNext c rd op src = u.withDraws ((s.accessCsr c rd op src).draws + 1) := he
  have hreg : ∀ r, (s.csrNext c rd op src).readX r = ((s.accessed c op src).writeX rd (s.accessOld c)).readX r := by
    intro r
    rw [hn]
    exact State.readX_congr hu.cfg hu.x r
  obtain ⟨x, hx⟩ := (s.accessed c op src).writeX_hart rd (s.accessOld c)
  have hcfg : u.cfg = s.cfg := by rw [hu.cfg, State.accessCsr_eq, hx]; exact ha.cfg
  have hleft : u.left = s.left := by rw [hu.left, State.accessCsr_eq, hx]; exact ha.left
  constructor
  · rw [hreg, State.readX_writeX_same, ha.cfg, s.truncX_accessOld c h]
  · have hpc : u.hart.pc = truncX s.cfg.xlen (s.pcValue + 4#64) := by
      rw [hu.pc, State.accessCsr_eq, hx]
      simp only [State.advancePc, State.withHart_hart, Hart.withPc_pc, State.withHart_cfg, ha.cfg]
      exact congrArg (fun p => truncX s.cfg.xlen (p + 4#64)) (State.pcValue_congr ha.cfg ha.pc)
    rw [hn, State.pcValue, State.withDraws_cfg, State.withDraws_hart, hpc, hcfg, truncX_truncX]
  · constructor
    · rw [hn]; exact hcfg
    · rw [hn]; exact hleft
    · rw [hn, State.withDraws_right, hu.right, State.accessCsr_eq, hx]; exact ha.right
    · intro r hr
      rw [hreg, State.readX_writeX_ne _ _ hr]
      exact State.readX_congr ha.cfg ha.x r
    · rw [hn, State.withDraws_hart, hu.priv, State.accessCsr_eq, hx]; exact ha.priv
    · intro j hj
      have h1 : (s.accessCsr c rd op src).cellAt j = s.cellAt j := by
        rw [State.accessCsr_eq, hx]; exact ha.cells j hj
      rw [hn, State.withDraws_cellAt, hu.cells j, h1]
      rwa [State.ownCell_congr (s := s) (t := s.accessCsr c rd op src)]
      · rw [← hu.cfg, hcfg]
      · rw [← hu.left, hleft]
    · exact s.csrNext_ownTicked c rd op src
    · intro a
      rw [hn, State.withDraws_mem, hu.mem, State.accessCsr_eq, hx]
      exact congrArg (memRead · a) ha.mem
    · rw [hn, State.withDraws_schedule, hu.schedule, State.accessCsr_eq, hx]; exact ha.schedule

theorem State.csrNext_draws (s : State) (c : Csr) (rd : Fin 32) (op : CsrOp) (src : Source) :
    (s.csrNext c rd op src).draws = s.draws + 1 := by
  obtain ⟨u, hu, he, _⟩ := (s.accessCsr c rd op src).retire_eq s.inhibitValue (writtenCounter c op src)
  have hn : s.csrNext c rd op src = u.withDraws ((s.accessCsr c rd op src).draws + 1) := he
  obtain ⟨x, pc, ha⟩ := s.accessCsr_hart c rd op src
  rw [hn, State.withDraws_draws, ha, State.withHart_draws, (s.accessed_sameButCsrs ..).draws]

/-! ### When an instruction answers what -/

theorem State.csrInstr_completes (s : State) (w : Word) (a : Nat) (rd : Fin 32) (op : CsrOp) (src : Source) (c : Csr)
    (hc : selectCsr s.cfg.xlen a = some c) (h : s.mayAccess c = true) :
    s.csrInstr w a rd op src = .next (s.csrNext c rd op src) := by
  simp [State.csrInstr, hc, h, State.csrNext]

theorem State.csrInstr_illegal (s : State) (w : Word) (a : Nat) (rd : Fin 32) (op : CsrOp) (src : Source) (c : Csr)
    (hc : selectCsr s.cfg.xlen a = some c) (h : s.mayAccess c = false) :
    s.csrInstr w a rd op src = s.raiseIllegal w := by
  simp [State.csrInstr, hc, h]

theorem State.csrInstr_refused (s : State) (w : Word) (a : Nat) (rd : Fin 32) (op : CsrOp) (src : Source)
    (hc : selectCsr s.cfg.xlen a = none) : s.csrInstr w a rd op src = .refused (.csrNotInScope a) := by
  simp [State.csrInstr, hc]

/-- If a CSR instruction answers a next state, the CSR is in scope, the check passed, and the state is `csrNext`. -/
theorem State.csrInstr_next {s t : State} {w : Word} {a : Nat} {rd : Fin 32} {op : CsrOp} {src : Source}
    (h : s.csrInstr w a rd op src = .next t) :
    ∃ c, selectCsr s.cfg.xlen a = some c ∧ s.mayAccess c = true ∧ t = s.csrNext c rd op src := by
  unfold State.csrInstr at h
  split at h
  · cases h
  · rename_i c hc
    split at h
    · rename_i hm
      cases h
      exact ⟨c, hc, hm, rfl⟩
    · cases h

/-- The operation and the source of an instruction. -/
def instrOp : Instr → CsrOp × Source
  | .csrrw _ _ rs1 => (.write, .reg rs1)
  | .csrrs _ _ rs1 => (.set, .reg rs1)
  | .csrrc _ _ rs1 => (.clear, .reg rs1)
  | .csrrwi _ _ u => (.write, .imm u)
  | .csrrsi _ _ u => (.set, .imm u)
  | .csrrci _ _ u => (.clear, .imm u)

/-- Every instruction is the one shared operation on its own operands. -/
theorem exec_eq_csrInstr (i : Instr) (s : State) :
    exec i s = s.csrInstr (encode i) i.csrAddr i.dest (instrOp i).1 (instrOp i).2 := by
  cases i <;> rfl

@[simp] theorem selectCsr_inhibit (l : Xlen) : selectCsr l 0x320 = some .inhibit := rfl

theorem selectCsr_low (l : Xlen) (c : Counter) : selectCsr l (0xB00 + counterNumber c) = some (.low c) := by
  cases c with
  | mcycle => rfl
  | minstret => rfl
  | mhpmcounter i => fin_cases i <;> rfl

theorem selectCsr_x32_high (c : Counter) : selectCsr .x32 (0xB80 + counterNumber c) = some (.high c) := by
  cases c with
  | mcycle => rfl
  | minstret => rfl
  | mhpmcounter i => fin_cases i <;> rfl

theorem State.raisesIllegal (s : State) (i : Instr) (c : Csr) (hc : selectCsr s.cfg.xlen i.csrAddr = some c)
    (h : s.mayAccess c = false) : RaisesIllegal i s := by
  refine ⟨_, by rw [exec_eq_csrInstr, State.csrInstr_illegal _ _ _ _ _ _ _ hc h]; rfl, rfl, rfl, rfl, ?_⟩
  dsimp only
  split <;> simp

/-- An access to `mcountinhibit` writes no counter. -/
theorem writtenCounter_inhibit (op : CsrOp) (src : Source) : writtenCounter .inhibit op src = none := by
  unfold writtenCounter; split <;> rfl

/-- The access check of `0x320` (rule R60). -/
theorem mayAccess_inhibit (s : State) : s.mayAccess .inhibit = true ↔ s.cfg.implemented = true ∧ s.hart.priv = .M := by
  simp [State.mayAccess]

/-- `legalize` in numbers (rule R62). -/
theorem legalize_eq (v : DWord) : legalize v = v.setWidth 32 &&& 0x000007FD#32 := rfl

/-- The low 32 bits of a complement on XLEN bits. -/
theorem setWidth_not_truncX (l : Xlen) (v : DWord) : (truncX l (~~~v)).setWidth 32 = ~~~(v.setWidth 32) := by
  rw [setWidth_truncX]
  refine BitVec.eq_of_getLsbD_eq fun n hn => ?_
  simp only [BitVec.getLsbD_setWidth, BitVec.getLsbD_not, hn, decide_true, Bool.true_and]
  have : n < 64 := by omega
  simp [this]

/-- The low 32 bits of a zero-extended immediate. -/
theorem setWidth_imm (l : Xlen) (u : Nat) : (truncX l (BitVec.ofNat 64 u)).setWidth 32 = BitVec.ofNat 32 u := by
  rw [setWidth_truncX]
  refine BitVec.eq_of_toNat_eq ?_
  simp only [BitVec.toNat_setWidth, BitVec.toNat_ofNat]; omega

/-- What setting bits leaves in the register (rule R67). -/
theorem legalize_set (v : Word) (w : DWord) : legalize (v.setWidth 64 ||| w) = (v ||| w.setWidth 32) &&& 0x000007FD#32 := by
  rw [legalize_eq, BitVec.setWidth_or]; simp

/-- What clearing bits leaves in the register (rule R68). -/
theorem legalize_clear (l : Xlen) (v : Word) (w : DWord) :
    legalize (v.setWidth 64 &&& truncX l (~~~w)) = (v &&& ~~~(w.setWidth 32)) &&& 0x000007FD#32 := by
  rw [legalize_eq, BitVec.setWidth_and, setWidth_not_truncX]; simp

/-- Writing the low half keeps the upper half (rule R72). -/
theorem setLow_x32 (o v : DWord) : (setLow .x32 o v).setWidth 32 = v.setWidth 32 ∧ setLow .x32 o v >>> 32 = o >>> 32 := by
  constructor
  · refine BitVec.eq_of_getLsbD_eq fun n hn => ?_
    simp only [setLow, BitVec.getLsbD_setWidth, BitVec.getLsbD_append, BitVec.getLsbD_extractLsb', hn]
    simp
  · refine BitVec.eq_of_getLsbD_eq fun n hn => ?_
    simp only [setLow, BitVec.getLsbD_ushiftRight, BitVec.getLsbD_append, BitVec.getLsbD_extractLsb']
    by_cases h : n < 32
    · have : 32 + n - 32 = n := by omega
      simp [this, h]
    · have : 32 + n - 32 = n := by omega
      simp [this, h, BitVec.getLsbD_of_ge o (32 + n) (by omega)]

/-- Writing the upper half keeps the low half (rule R72). -/
theorem setHigh_x32 (o v : DWord) : (setHigh o v >>> 32).setWidth 32 = v.setWidth 32 ∧ (setHigh o v).setWidth 32 = o.setWidth 32 := by
  constructor
  · refine BitVec.eq_of_getLsbD_eq fun n hn => ?_
    simp only [setHigh, BitVec.getLsbD_setWidth, BitVec.getLsbD_ushiftRight, BitVec.getLsbD_append, BitVec.getLsbD_extractLsb', hn]
    have : 32 + n - 32 = n := by omega
    simp [hn]
  · refine BitVec.eq_of_getLsbD_eq fun n hn => ?_
    simp only [setHigh, BitVec.getLsbD_setWidth, BitVec.getLsbD_append, BitVec.getLsbD_extractLsb', hn]
    simp

/-- A written counter holds the written value when the instruction has completed (rule R87). -/
theorem count_csrNext_written (s : State) (c : Counter) (csr : Csr) (rd : Fin 32) (op : CsrOp) (src : Source)
    (h : csr.counter? = some c) (hw : op.writes src = true) :
    (s.csrNext csr rd op src).count c = (s.writeCsr csr (s.accessNew csr op src)).count c := by
  rw [State.count_csrNext, if_pos (.inl (by simp [writtenCounter, hw, h])), State.accessed, if_pos hw]

/-- The statements' `writesValue` is what the shared operation writes. -/
theorem writesValue_eq (i : Instr) (s : State) (old : DWord) :
    writesValue i s old = if (instrOp i).1.writes (instrOp i).2 then some ((instrOp i).1.apply s.cfg.xlen old ((instrOp i).2.value s)) else none := by
  cases i <;> simp only [writesValue, instrOp, CsrOp.writes, CsrOp.apply, Source.isZero, Source.value] <;>
    first
      | rfl
      | (rename_i x; by_cases h : x = 0 <;> simp [h])

/-- The numbers 3 to 10 are `mhpmcounter`s. -/
theorem numberedCounter_hpm {n : Nat} (h : 3 ≤ n ∧ n < 11) :
    numberedCounter n = some (some (.mhpmcounter ⟨n - 3, by omega⟩)) := by
  unfold numberedCounter
  rw [if_neg (by omega), if_neg (by omega), dif_pos h]

/-- The numbers 11 to 31 have no counter on this hardware. -/
theorem numberedCounter_absent {n : Nat} (h : 11 ≤ n ∧ n < 32) : numberedCounter n = some none := by
  unfold numberedCounter
  rw [if_neg (by omega), if_neg (by omega), dif_neg (by omega), if_pos h]

/-- The number of a counter. -/
theorem numberedCounter_some {n : Nat} {c : Counter} (h : numberedCounter n = some (some c)) : counterNumber c = n := by
  unfold numberedCounter at h
  split at h
  · cases h; simp [counterNumber, *]
  · split at h
    · cases h; simp [counterNumber, *]
    · split at h
      · cases h; simp only [counterNumber]; omega
      · split at h <;> cases h

/-- Rule R72's low addresses. -/
theorem selectCsr_lowRange (l : Xlen) {n : Nat} (h : n < 32) : selectCsr l (0xB00 + n) =
    match numberedCounter n with | some (some c) => some (.low c) | some none => some .absent | none => none := by
  unfold selectCsr
  rcases hn : numberedCounter n with _ | _ | c <;>
    simp only [if_neg (show ¬ 0xB00 + n = 0x320 by omega), if_pos (show 0xB00 ≤ 0xB00 + n ∧ 0xB00 + n < 0xB20 by omega),
      Nat.add_sub_cancel_left, hn]

/-- Rule R72's upper-half addresses. -/
theorem selectCsr_highRange {n : Nat} (h : n < 32) : selectCsr .x32 (0xB80 + n) =
    match numberedCounter n with | some (some c) => some (.high c) | some none => some .absent | none => none := by
  unfold selectCsr
  rcases hn : numberedCounter n with _ | _ | c <;>
    simp only [if_neg (show ¬ 0xB80 + n = 0x320 by omega), if_neg (show ¬ (0xB00 ≤ 0xB80 + n ∧ 0xB80 + n < 0xB20) by omega),
      true_and, if_pos (show 0xB80 ≤ 0xB80 + n ∧ 0xB80 + n < 0xBA0 by omega),
      Nat.add_sub_cancel_left, hn]

/-- The addresses of a counter. -/
theorem selectCsr_counter {l : Xlen} {a : Nat} {csr : Csr} {c : Counter} (h : selectCsr l a = some csr) (hc : csr.counter? = some c) :
    a = 0xB00 + counterNumber c ∨ a = 0xB80 + counterNumber c := by
  unfold selectCsr at h
  split at h
  · cases h; cases hc
  · split at h
    · split at h
      · rename_i d hd; cases h; cases hc; left; have := numberedCounter_some hd; omega
      · cases h; cases hc
      · cases h
    · split at h
      · split at h
        · rename_i d hd; cases h; cases hc; right; have := numberedCounter_some hd; omega
        · cases h; cases hc
        · cases h
      · cases h

/-- The shared operation writes a counter only where `WritesCounter` says so. -/
theorem writtenCounter_of_not {l : Xlen} {i : Instr} {s : State} {csr : Csr} {c : Counter} (h : selectCsr l i.csrAddr = some csr)
    (hw : ¬ WritesCounter i s c) : writtenCounter csr (instrOp i).1 (instrOp i).2 ≠ some c := by
  intro hc
  unfold writtenCounter at hc
  split at hc
  · rename_i hop
    exact hw ⟨selectCsr_counter h hc, 0#64, by rw [writesValue_eq, if_pos hop]; simp⟩
  · cases hc

/-- `0x320` alone is the register. -/
theorem selectCsr_eq_inhibit {l : Xlen} {a : Nat} (h : selectCsr l a = some .inhibit) : a = 0x320 := by
  unfold selectCsr at h
  split at h
  · assumption
  · split at h
    · split at h <;> cases h
    · split at h
      · split at h <;> cases h
      · cases h

/-- What a next state of `exec` is. -/
theorem exec_next {s t : State} {i : Instr} (h : exec i s = .next t) :
    ∃ c, selectCsr s.cfg.xlen i.csrAddr = some c ∧ s.mayAccess c = true ∧ t = s.csrNext c i.dest (instrOp i).1 (instrOp i).2 := by
  rw [exec_eq_csrInstr] at h; exact State.csrInstr_next h

/-- An instruction that does not write the register leaves it as it was. -/
theorem exec_inhibitValue {s t : State} {i : Instr} (h : exec i s = .next t) (hw : ¬ WritesInhibit i s) :
    t.inhibitValue = s.inhibitValue := by
  obtain ⟨c, hc, -, rfl⟩ := exec_next h
  by_cases hi : c = .inhibit
  · subst hi
    refine inhibit_csrNext_of_not_writes _ _ _ (Bool.eq_false_iff.2 fun hop => hw ⟨selectCsr_eq_inhibit hc, 0#64, ?_⟩)
    rw [writesValue_eq, if_pos hop]; simp
  · exact inhibit_csrNext_counter _ _ _ _ _ hi

/-- A next state of `exec` keeps the frame. -/
theorem exec_completes {s t : State} {i : Instr} (h : exec i s = .next t) :
    ∃ c, selectCsr s.cfg.xlen i.csrAddr = some c ∧ t = s.csrNext c i.dest (instrOp i).1 (instrOp i).2 ∧
      Completes s t i.dest (s.accessOld c) (writtenCounter c (instrOp i).1 (instrOp i).2) := by
  obtain ⟨c, hc, -, rfl⟩ := exec_next h
  exact ⟨c, hc, rfl, s.csrNext_completes c _ _ _ fun d hd => selectCsr_high (hd ▸ hc)⟩

end Sys2Proof.Machine
end

