-- ==== Sys2Proof/Laws/Decode.lean ====
section
/-! SUPPORT. The fields of an encoded word, and decoding by fields. -/

namespace Sys2Proof

/-- The bytes of a word make the word. -/
theorem wordOfBytes_bytesOfWord (w : Word) :
    wordOfBytes (w.extractLsb' 0 8) (w.extractLsb' 8 8) (w.extractLsb' 16 8) (w.extractLsb' 24 8) = w := by
  refine BitVec.eq_of_getLsbD_eq fun n hn => ?_
  simp only [wordOfBytes, BitVec.getLsbD_append, BitVec.getLsbD_extractLsb']
  interval_cases n <;> rfl

/-- Decoding the bytes of a word is decoding the word. -/
theorem decode_bytesOfWord (w : Word) (rest : List Byte) : decode (bytesOfWord w ++ rest) =
    (decodeWord w).map (fun i => (i, rest)) := by
  simp only [bytesOfWord, List.cons_append, List.nil_append, decode, wordOfBytes_bytesOfWord]
  cases decodeWord w <;> rfl

/-- The fields of an encoded word are the fields it was made of (rule R50). -/
theorem encodeFields_extract (csr src : Nat) (f : BitVec 3) (rd : Fin 32) :
    (encodeFields csr src f rd).extractLsb' 0 2 = 0b11#2 ∧ opcodeField (encodeFields csr src f rd) = 0b1110011#7 ∧
    funct3Field (encodeFields csr src f rd) = f ∧ rdField (encodeFields csr src f rd) = rd ∧
    (encodeFields csr src f rd).extractLsb' 15 5 = BitVec.ofNat 5 src ∧
    (encodeFields csr src f rd).extractLsb' 20 12 = BitVec.ofNat 12 csr := by
  refine ⟨?_, ?_, ?_, ?_, ?_, ?_⟩
  · refine BitVec.eq_of_getLsbD_eq fun n hn => ?_
    simp only [encodeFields, BitVec.getLsbD_append, BitVec.getLsbD_extractLsb']
    interval_cases n <;> rfl
  · refine BitVec.eq_of_getLsbD_eq fun n hn => ?_
    simp only [opcodeField, encodeFields, BitVec.getLsbD_append, BitVec.getLsbD_extractLsb']
    interval_cases n <;> rfl
  · refine BitVec.eq_of_getLsbD_eq fun n hn => ?_
    simp only [funct3Field, encodeFields, BitVec.getLsbD_append, BitVec.getLsbD_extractLsb']
    interval_cases n <;> simp
  · have : (encodeFields csr src f rd).extractLsb' 7 5 = BitVec.ofNat 5 rd.val := by
      refine BitVec.eq_of_getLsbD_eq fun n hn => ?_
      simp only [encodeFields, BitVec.getLsbD_append, BitVec.getLsbD_extractLsb']
      interval_cases n <;> simp
    rw [rdField, this]; ext; simp
  · refine BitVec.eq_of_getLsbD_eq fun n hn => ?_
    simp only [encodeFields, BitVec.getLsbD_append, BitVec.getLsbD_extractLsb']
    interval_cases n <;> simp
  · refine BitVec.eq_of_getLsbD_eq fun n hn => ?_
    simp only [encodeFields, BitVec.getLsbD_append, BitVec.getLsbD_extractLsb']
    interval_cases n <;> simp

/-- A CSR address that fits its field is read back. -/
theorem csrField_encodeFields {a : Nat} (h : a < 4096) (src : Nat) (f : BitVec 3) (rd : Fin 32) :
    csrField (encodeFields a src f rd) = a := by
  rw [csrField, (encodeFields_extract a src f rd).2.2.2.2.2, BitVec.toNat_ofNat]; omega

/-- An immediate that fits its field is read back. -/
theorem uimmField_encodeFields {u : Nat} (h : u < 32) (a : Nat) (f : BitVec 3) (rd : Fin 32) :
    uimmField (encodeFields a u f rd) = u := by
  rw [uimmField, (encodeFields_extract a u f rd).2.2.2.2.1, BitVec.toNat_ofNat]; omega

/-- A register number is read back. -/
theorem rs1Field_encodeFields (r : Fin 32) (a : Nat) (f : BitVec 3) (rd : Fin 32) :
    rs1Field (encodeFields a r.val f rd) = r := by
  rw [rs1Field, (encodeFields_extract a r.val f rd).2.2.2.2.1]; ext; simp

theorem encodeFields_fields (w : Word) (h : opcodeField w = 0b1110011#7) :
    encodeFields (csrField w) (w.extractLsb' 15 5).toNat (funct3Field w) (rdField w) = w := by
  refine BitVec.eq_of_getLsbD_eq fun n hn => ?_
  have hop : ∀ k < 7, w.getLsbD k = (0b1110011#7).getLsbD k := by
    intro k hk
    rw [← h, opcodeField, BitVec.getLsbD_extractLsb']; simp [hk]
  simp only [encodeFields, csrField, rdField, funct3Field, BitVec.getLsbD_append, BitVec.val_toFin, BitVec.ofNat_toNat,
    BitVec.setWidth_eq, BitVec.getLsbD_extractLsb']
  by_cases h7 : n < 7
  · simp [h7, hop n h7]
  · interval_cases n <;> first | omega | simp

/-- With the major opcode of the six, `funct3` alone decides (rule R53). -/
theorem decodeWord_eq (w : Word) (h : opcodeField w = 0b1110011#7) : decodeWord w =
    if funct3Field w = 0b001#3 then .ok (.csrrw (rdField w) (csrField w) (rs1Field w))
    else if funct3Field w = 0b010#3 then .ok (.csrrs (rdField w) (csrField w) (rs1Field w))
    else if funct3Field w = 0b011#3 then .ok (.csrrc (rdField w) (csrField w) (rs1Field w))
    else if funct3Field w = 0b101#3 then .ok (.csrrwi (rdField w) (csrField w) (uimmField w))
    else if funct3Field w = 0b110#3 then .ok (.csrrsi (rdField w) (csrField w) (uimmField w))
    else if funct3Field w = 0b111#3 then .ok (.csrrci (rdField w) (csrField w) (uimmField w))
    else if funct3Field w = 0b000#3 then .error (.otherSystem w)
    else .error (.noSuchFunct3 w) := by
  have h0 : w.extractLsb' 0 2 = 0b11#2 := by
    have : w.extractLsb' 0 2 = (opcodeField w).extractLsb' 0 2 := by
      refine BitVec.eq_of_getLsbD_eq fun n hn => ?_
      simp only [opcodeField, BitVec.getLsbD_extractLsb']
      interval_cases n <;> simp
    rw [this, h]; rfl
  unfold decodeWord
  rw [if_neg (by simp [h0]), if_neg (by simp [h])]

/-- A word that decodes has the major opcode of the six. -/
theorem decodeWord_ok_opcode {w : Word} {i : Instr} (h : decodeWord w = .ok i) : opcodeField w = 0b1110011#7 := by
  by_contra hne
  unfold decodeWord at h
  split at h
  · cases h
  · simp_all

/-- The eight values of `funct3`. -/
theorem funct3_cases (f : BitVec 3) : f = 0b000#3 ∨ f = 0b001#3 ∨ f = 0b010#3 ∨ f = 0b011#3 ∨ f = 0b100#3 ∨ f = 0b101#3 ∨
    f = 0b110#3 ∨ f = 0b111#3 := by
  revert f; decide

/-- The host's numbering of a word lays out the bytes of that word. -/
theorem tableBytes_encode (i : Instr) : tableBytes 32 (encode i).toNat = bytesOfWord (encode i) := by
  have : (encode i).toNat % 2 ^ 32 = (encode i).toNat := Nat.mod_eq_of_lt (encode i).isLt
  rw [tableBytes, this, BitVec.ofNat_toNat, BitVec.setWidth_eq]

end Sys2Proof
end

