-- ==== Sys2Proof/Laws/Memory.lean ====
section
/-! SUPPORT. Program text: a read after a write, and that a write keeps the canonical form. -/

namespace Sys2Proof.Machine

theorem Memory.wf_cons {a : Nat} {v : Byte} {m : Memory} :
    Memory.wf ((a, v) :: m) = true ↔ (∀ c ∈ m.head?, a < c.1) ∧ Memory.wf m = true := by
  cases m with
  | nil => simp [Memory.wf]
  | cons c m => obtain ⟨b, w⟩ := c; simp [Memory.wf]

theorem memRead_memWrite_same (m : Memory) (a : Nat) (v : Byte) : memRead (memWrite m a v) a = some v := by
  induction m with
  | nil => simp [memWrite, memRead]
  | cons c m ih =>
    obtain ⟨b, w⟩ := c
    simp only [memWrite]
    split
    · simp [memRead]
    · split
      · simp [memRead]
      · simp [memRead, *]

theorem memRead_memWrite_ne (m : Memory) {a b : Nat} (v : Byte) (h : b ≠ a) :
    memRead (memWrite m a v) b = memRead m b := by
  induction m with
  | nil => simp [memWrite, memRead, h]
  | cons c m ih =>
    obtain ⟨d, w⟩ := c
    simp only [memWrite]
    split
    · simp [memRead, h]
    · split
      · subst_vars; simp [memRead, h]
      · simp [memRead, ih]

theorem memWrite_head (m : Memory) (a : Nat) (v : Byte) (b : Nat)
    (hb : b < a) (h : ∀ c ∈ m.head?, b < c.1) : ∀ c ∈ (memWrite m a v).head?, b < c.1 := by
  cases m with
  | nil => simpa [memWrite] using hb
  | cons c m =>
    obtain ⟨d, w⟩ := c
    simp only [memWrite]
    split
    · simpa using hb
    · split
      · simpa using hb
      · simpa using h

theorem memWrite_wf (m : Memory) (a : Nat) (v : Byte) (h : Memory.wf m = true) :
    Memory.wf (memWrite m a v) = true := by
  induction m with
  | nil => rfl
  | cons c m ih =>
    obtain ⟨b, w⟩ := c
    have hm := Memory.wf_cons.1 h
    simp only [memWrite]
    split
    · rename_i hab
      exact Memory.wf_cons.2 ⟨by simpa using hab, h⟩
    · split
      · subst_vars; exact Memory.wf_cons.2 hm
      · exact Memory.wf_cons.2 ⟨memWrite_head m a v b (by omega) hm.1, ih hm.2⟩

theorem memWriteBytes_wf (vs : List Byte) (m : Memory) (a : Nat) (h : Memory.wf m = true) :
    Memory.wf (memWriteBytes m a vs) = true := by
  induction vs generalizing m a with
  | nil => exact h
  | cons v vs ih => exact ih _ _ (memWrite_wf m a v h)

theorem memRead_memWriteBytes_lt (vs : List Byte) (m : Memory) {a b : Nat} (h : b < a) :
    memRead (memWriteBytes m a vs) b = memRead m b := by
  induction vs generalizing m a with
  | nil => rfl
  | cons v vs ih => rw [memWriteBytes, ih _ (by omega), memRead_memWrite_ne _ _ (by omega)]

/-- Bytes put at consecutive addresses are read back. -/
theorem memReadBytes_memWriteBytes (vs : List Byte) (m : Memory) (a : Nat) :
    memReadBytes (memWriteBytes m a vs) a vs.length = .ok vs := by
  induction vs generalizing m a with
  | nil => rfl
  | cons v vs ih =>
    simp only [memWriteBytes, List.length_cons, memReadBytes]
    rw [memRead_memWriteBytes_lt _ _ (by omega), memRead_memWrite_same]
    simp [ih]

end Sys2Proof.Machine
end

