-- ==== Sys2Proof/Laws/PerInstr.lean ====
section
/-! SUPPORT. One statement for every instruction as syntax: its word matches its row of `spec/opcode_table.json`
(rule R53). -/

namespace Sys2Proof.Laws.OpcodeRow

/-- The `match` of an instruction's row (rule R53). -/
def rowMatch : Instr → Word
  | .csrrw _ _ _ => 0x00001073#32
  | .csrrs _ _ _ => 0x00002073#32
  | .csrrc _ _ _ => 0x00003073#32
  | .csrrwi _ _ _ => 0x00005073#32
  | .csrrsi _ _ _ => 0x00006073#32
  | .csrrci _ _ _ => 0x00007073#32

/-- An instruction's word under the mask of its row is the row's `match`. -/
def Statement (i : Instr) : Prop := encode i &&& 0x0000707F#32 = rowMatch i

/-- Under the mask of rule R53 only `funct3` and the opcode are left of a word. -/
theorem encodeFields_masked (csr src : Nat) (f : BitVec 3) (rd : Fin 32) :
    encodeFields csr src f rd &&& 0x0000707F#32 = (0#17 ++ f ++ 0#5 ++ 0b1110011#7 : BitVec 32) := by
  refine BitVec.eq_of_getLsbD_eq fun n hn => ?_
  simp only [encodeFields, BitVec.getLsbD_and, BitVec.getLsbD_append]
  interval_cases n <;> simp

theorem csrrw (rd : Fin 32) (csr : Nat) (rs1 : Fin 32) : Statement (.csrrw rd csr rs1) := encodeFields_masked ..
theorem csrrs (rd : Fin 32) (csr : Nat) (rs1 : Fin 32) : Statement (.csrrs rd csr rs1) := encodeFields_masked ..
theorem csrrc (rd : Fin 32) (csr : Nat) (rs1 : Fin 32) : Statement (.csrrc rd csr rs1) := encodeFields_masked ..
theorem csrrwi (rd : Fin 32) (csr : Nat) (uimm : Nat) : Statement (.csrrwi rd csr uimm) := encodeFields_masked ..
theorem csrrsi (rd : Fin 32) (csr : Nat) (uimm : Nat) : Statement (.csrrsi rd csr uimm) := encodeFields_masked ..
theorem csrrci (rd : Fin 32) (csr : Nat) (uimm : Nat) : Statement (.csrrci rd csr uimm) := encodeFields_masked ..

end Sys2Proof.Laws.OpcodeRow
end

