-- ==== Sys2Proof/Laws/Reset.lean ====
section
/-! SUPPORT. The harts and cells after reset. -/

namespace Sys2Proof.Machine

/-- A hart after reset is well-formed. -/
theorem hart_atReset_wf (p : Params) (n h : Nat) (hp : Params.wf p) : Hart.wf p (Hart.atReset p n h) where
  zeroReg := by simp [Hart.atReset]
  regWidth r := by
    simp only [Hart.atReset, Fin.getElem_fin, Vector.getElem_ofFn]
    split <;> simp
  pcWidth := by simp [Hart.atReset]
  pcAligned := hp
  mode := rfl
  legal := by
    simp only [Hart.atReset]; split
    · rw [BitVec.and_assoc, BitVec.and_not_self]; simp
    · simp
  absentRegister h := by simp [Hart.atReset, h]
  absentCounter i hi := by
    have : p.hpmImplemented[(i : Nat)] = false := hi
    simp [Hart.atReset, this]

/-- Every hart after reset is one at reset. -/
theorem mem_hartsAtReset {p : Params} {n a k : Nat} {x : Hart} (h : x ∈ hartsAtReset p n a k) : ∃ j, x = Hart.atReset p n j := by
  simp only [hartsAtReset, List.mem_map] at h
  obtain ⟨j, -, rfl⟩ := h
  exact ⟨j, rfl⟩

@[simp] theorem hartsAtReset_length (p : Params) (n a k : Nat) : (hartsAtReset p n a k).length = k := by
  simp [hartsAtReset]

@[simp] theorem cellsAtReset_length (p : Params) (n k : Nat) : (cellsAtReset p n k).length = k := by
  simp [cellsAtReset]

/-- After reset no `CY` is set where there is no register. -/
theorem cells_absent (p : Params) (n k : Nat) (hi : p.implemented = false) : ∀ c ∈ cellsAtReset p n k, c.cy = false := by
  intro c hc
  simp only [cellsAtReset, List.mem_map] at hc
  obtain ⟨j, -, rfl⟩ := hc
  simp [CycleCell.atReset, hi]

/-- The cells made at reset hold every hart. -/
theorem cellsNeeded_lt (p : Params) {h k : Nat} (hk : h < k) : cellNumber p h < cellsNeeded p k := by
  induction k with
  | zero => omega
  | succ k ih =>
    rw [cellsNeeded]
    rcases Nat.lt_succ_iff_lt_or_eq.1 hk with h' | rfl
    · exact lt_of_lt_of_le (ih h') (Nat.le_max_left ..)
    · exact lt_of_lt_of_le (Nat.lt_succ_self _) (Nat.le_max_right ..)

/-- The harts after the reset event. -/
theorem resetAll_harts (s : State) : s.resetAll.harts =
    hartsAtReset s.cfg s.draws 0 s.left.length ++ Hart.atReset s.cfg s.draws s.left.length ::
      hartsAtReset s.cfg s.draws (s.left.length + 1) s.right.length := rfl

/-- The harts after the reset event, as one list. -/
theorem resetAll_harts_eq (s : State) : s.resetAll.harts = hartsAtReset s.cfg s.draws 0 s.harts.length := by
  have h : List.range' 0 (s.left.length + (1 + s.right.length)) =
      List.range' 0 s.left.length ++ s.left.length :: List.range' (s.left.length + 1) s.right.length := by
    rw [← List.range'_append_1, Nat.zero_add, Nat.add_comm 1, List.range'_succ]
  have hl : s.harts.length = s.left.length + (1 + s.right.length) := by simp [State.harts]; omega
  rw [resetAll_harts, hl, hartsAtReset, hartsAtReset, hartsAtReset, h, List.map_append, List.map_cons]

/-- Hart `n` after the reset event. -/
theorem resetAll_hart {s : State} {n : Nat} (h : n < s.harts.length) :
    s.resetAll.harts[n]? = some (Hart.atReset s.cfg s.draws n) := by
  rw [resetAll_harts_eq, hartsAtReset, List.getElem?_map, List.getElem?_range' h]
  simp

/-- Cell `j` after the reset event. -/
theorem resetAll_cellAt {s : State} {j : Nat} (h : j < s.cycles.length) :
    s.resetAll.cellAt j = CycleCell.atReset s.cfg s.draws j := by
  show (cellsAtReset s.cfg s.draws s.cycles.length).getD _ _ = _
  rw [List.getD, cellsAtReset, List.getElem?_map, List.getElem?_range h]; rfl

end Sys2Proof.Machine
end

