-- ==== Sys2Proof/Laws/Step.lean ====
section
/-! SUPPORT. What a step can do, and the register as each hart sees it. -/

namespace Sys2Proof.Machine

/-- Fetching and decoding an instruction runs it. -/
theorem runHart_of_decode {s : State} {bytes rest : List Byte} {i : Instr} (h1 : s.fetch = .ok bytes)
    (h2 : decode bytes = .ok (i, rest)) : s.runHart = exec i s := by
  simp [State.runHart, h1, h2]

/-- Everything a step can do: run an instruction, or one of the other moves of rule R108. -/
theorem step_cases {s t : State} (h : step s = .next t) :
    (∃ i u, s.runs i ∧ (∃ l, u = s.withSchedule l) ∧ exec i u = .next t) ∨
    (∃ c k l, s.schedule = .tick c k :: l ∧ t = (s.withSchedule l).tick c k) ∨
    (∃ b l, s.schedule = .select b :: l ∧ t = (s.withSchedule l).select b) ∨
    (∃ l, s.schedule = .reset :: l ∧ t = (s.withSchedule l).resetAll) := by
  have hrun : ∀ u : State, u.runHart = .next t → ∃ bytes rest i, u.fetch = .ok bytes ∧ decode bytes = .ok (i, rest) ∧ exec i u = .next t := by
    intro u hu
    unfold State.runHart at hu
    split at hu
    · cases hu
    · rename_i bytes hb
      split at hu
      · cases hu
      · rename_i i rest hd
        exact ⟨bytes, rest, i, hb, hd, hu⟩
  unfold step at h
  split at h
  · rename_i hs
    obtain ⟨b, r, i, h1, h2, h3⟩ := hrun s h
    exact .inl ⟨i, s, ⟨.inl hs, b, r, h1, h2⟩, ⟨[], by rw [← hs]; rfl⟩, h3⟩
  · rename_i m l hs
    cases m with
    | run =>
      obtain ⟨b, r, i, h1, h2, h3⟩ := hrun _ h
      exact .inl ⟨i, _, ⟨.inr ⟨l, hs⟩, b, r, h1, h2⟩, ⟨l, rfl⟩, h3⟩
    | tick c k => cases h; exact .inr (.inl ⟨c, k, l, hs, rfl⟩)
    | select b => cases h; exact .inr (.inr (.inl ⟨b, l, hs, rfl⟩))
    | reset => cases h; exact .inr (.inr (.inr ⟨l, hs, rfl⟩))

/-- A hart other than the selected one is found in the unselected harts. -/
theorem harts_getElem_congr {s t : State} (hl : t.left = s.left) (hr : t.right = s.right) {b : Nat} (h : b ≠ s.hartNumber) :
    t.harts[b]? = s.harts[b]? := by
  unfold State.harts State.hartNumber at *
  rw [hl, hr]
  rcases Nat.lt_or_ge b s.left.length with hb | hb
  · rw [List.getElem?_append_left hb, List.getElem?_append_left hb]
  · obtain ⟨k, rfl⟩ := Nat.exists_eq_add_of_le hb
    have : k ≠ 0 := by omega
    obtain ⟨k, rfl⟩ := Nat.exists_eq_succ_of_ne_zero this
    rw [List.getElem?_append_right (by omega), List.getElem?_append_right (by omega)]
    simp [Nat.succ_eq_add_one]

/-- The number of harts. -/
theorem harts_length_congr {s t : State} (hl : t.left = s.left) (hr : t.right = s.right) : t.harts.length = s.harts.length := by
  simp [State.harts, hl, hr]

/-- What selecting a hart does. -/
theorem select_eq {s : State} {b : Nat} (h : b < s.harts.length) :
    s.select b = s.withHarts (s.harts.take b) s.harts[b] (s.harts.drop (b + 1)) := by
  unfold State.select
  rw [List.drop_eq_getElem_cons h]

/-- Selecting changes no hart. -/
theorem select_harts (s : State) (b : Nat) : (s.select b).harts = s.harts := by
  by_cases hb : b < s.harts.length
  · rw [select_eq hb]
    show s.harts.take b ++ s.harts[b] :: s.harts.drop (b + 1) = s.harts
    rw [← List.drop_eq_getElem_cons hb, List.take_append_drop]
  · have : s.select b = s := by
      unfold State.select
      rw [List.drop_eq_nil_of_le (by omega)]
    rw [this]

/-- Selecting changes nothing but the selection. -/
theorem select_rest (s : State) (b : Nat) : (s.select b).cfg = s.cfg ∧ (s.select b).mem = s.mem ∧ (s.select b).cycles = s.cycles := by
  unfold State.select; split <;> exact ⟨rfl, rfl, rfl⟩

/-- The hart that selecting number `b` selects. -/
theorem select_hart {s : State} {b : Nat} {x : Hart} (h : s.harts[b]? = some x) : (s.select b).hart = x := by
  obtain ⟨hlt, hx⟩ := List.getElem?_eq_some_iff.1 h
  rw [select_eq hlt, ← hx]; rfl

/-- The cell of the hart that selecting number `b` selects. -/
theorem select_cycle {s : State} {b : Nat} (h : b < s.harts.length) :
    (s.select b).cycle = s.cellAt (cellNumber s.cfg b) := by
  rw [select_eq h]
  simp only [State.cycle, State.ownCell, State.hartNumber, State.withHarts_left, State.withHarts_cfg, List.length_take,
    Nat.min_eq_left h.le]
  rfl

/-- The selected hart among all. -/
theorem harts_getElem?_hart (s : State) : s.harts[s.hartNumber]? = some s.hart := by
  simp [State.harts, State.hartNumber]

/-- Every bit of every hart's register (rules R15, R29). -/
theorem registerOf_getLsbD {s : State} {b : Nat} {x : Hart} (h : s.harts[b]? = some x) (n : Nat) :
    (s.registerOf b).getLsbD n = (s.cfg.implemented &&
      (if n = 0 then (s.cellAt (cellNumber s.cfg b)).cy else x.inhibit.getLsbD n && decide (n = 2 ∨ (3 ≤ n ∧ n ≤ 10)))) := by
  obtain ⟨hlt, hx⟩ := List.getElem?_eq_some_iff.1 h
  rw [State.registerOf, select_eq hlt, State.inhibitValue_getLsbD]
  simp only [State.withHarts_cfg, State.withHarts_hart, hx]
  congr 2
  simp only [State.cycle, State.ownCell, State.hartNumber, State.withHarts_left, State.withHarts_cfg, List.length_take,
    Nat.min_eq_left hlt.le]
  rfl

/-- What the register of a hart depends on. -/
theorem registerOf_congr {s t : State} {b : Nat} {x y : Hart} (hx : s.harts[b]? = some x) (hy : t.harts[b]? = some y)
    (hcfg : t.cfg = s.cfg) (hi : y.inhibit = x.inhibit)
    (hc : (t.cellAt (cellNumber s.cfg b)).cy = (s.cellAt (cellNumber s.cfg b)).cy) : t.registerOf b = s.registerOf b := by
  refine BitVec.eq_of_getLsbD_eq fun n _ => ?_
  rw [registerOf_getLsbD hx, registerOf_getLsbD hy, hcfg, hi, hc]

/-- The register of the selected hart. -/
theorem registerOf_self (s : State) : s.registerOf s.hartNumber = s.inhibitValue := by
  refine BitVec.eq_of_getLsbD_eq fun n _ => ?_
  rw [registerOf_getLsbD (harts_getElem?_hart s), State.inhibitValue_getLsbD]; rfl

/-- Bit 0 of the register is the `CY` of its cell. -/
theorem cy_eq (s : State) (h : s.cfg.implemented = true) : s.cycle.cy = s.inhibitValue.getLsbD 0 := by
  rw [State.inhibitValue_getLsbD]; simp [h]

theorem registerOf_of_counts {s t : State} (h : SameButCounts s t) {b : Nat} (hb : b < s.harts.length) : t.registerOf b = s.registerOf b := by
  have hx := List.getElem?_eq_getElem hb
  have hcell : ∀ j, (t.cellAt j).cy = (s.cellAt j).cy := by
    intro j
    by_cases hj : j = s.ownCell
    · subst hj
      have := h.cy
      rwa [State.cycle, State.cycle, State.ownCell_congr h.cfg h.left] at this
    · rw [h.cells j hj]
  by_cases hbn : b = s.hartNumber
  · subst hbn
    have : t.hartNumber = s.hartNumber := congrArg List.length h.left
    exact registerOf_congr (harts_getElem?_hart s) (this ▸ harts_getElem?_hart t) h.cfg h.inhibit (hcell _)
  · exact registerOf_congr hx ((harts_getElem_congr h.left h.right hbn).trans hx) h.cfg rfl (hcell _)

end Sys2Proof.Machine
end

