-- ==== Sys2Proof/Laws/WellFormed.lean ====
section
/-! SUPPORT. What keeps a state well-formed, operation by operation. -/

namespace Sys2Proof.Machine

theorem State.wf.withHart {s : State} (h : s.wf) {x : Hart} (hx : Hart.wf s.cfg x) : (s.withHart x).wf where
  params := h.params
  harts := by
    intro y hy
    simp only [State.harts, State.withHart_left, State.withHart_hart, State.withHart_right, List.mem_append, List.mem_cons] at hy
    rcases hy with hy | rfl | hy
    · exact h.harts y (by simp [State.harts, hy])
    · exact hx
    · exact h.harts y (by simp [State.harts, hy])
  cells := by
    intro n hn
    exact h.cells n (by simpa [State.harts] using hn)
  absentCy := h.absentCy
  text := h.text

theorem State.wf.hart {s : State} (h : s.wf) : Hart.wf s.cfg s.hart := h.harts _ (by simp [State.harts])

theorem State.wf.setCycle {s : State} (h : s.wf) {c : CycleCell} (hc : s.cfg.implemented = false → c.cy = false) :
    (s.setCycle c).wf where
  params := h.params
  harts := h.harts
  cells n hn := lt_of_lt_of_le (h.cells n hn) (putCell_length ..)
  absentCy hi x hx := by
    rcases mem_putCell hx with rfl | rfl | hx
    · exact hc hi
    · rfl
    · exact h.absentCy hi x hx
  text := h.text

theorem State.wf.cycle_cy {s : State} (h : s.wf) (hi : s.cfg.implemented = false) : s.cycle.cy = false := by
  unfold State.cycle State.cellAt List.getD
  cases hx : s.cycles[s.ownCell]? with
  | none => rfl
  | some c => exact h.absentCy hi c (List.mem_of_getElem? hx)

theorem State.wf.setCount {s : State} (h : s.wf) (c : Counter) (v : DWord) : (s.setCount c v).wf := by
  cases c with
  | mcycle => exact h.setCycle fun hi => h.cycle_cy hi
  | minstret => exact h.withHart { h.hart with }
  | mhpmcounter i =>
    unfold State.setCount
    dsimp only
    split
    · rename_i hi
      refine h.withHart { h.hart with absentCounter := fun j hj => ?_ }
      have hne : (i : Nat) ≠ j := by
        intro e; rw [Fin.ext e] at hi; rw [hi] at hj; cases hj
      simp only [Hart.withHpm_hpm, Fin.getElem_fin, Vector.getElem_set_ne _ _ hne]
      exact h.hart.absentCounter j hj
    · exact h

theorem State.wf.tick {s : State} (h : s.wf) (c : Counter) (k : Nat) : (s.tick c k).wf := by
  unfold State.tick; split
  · exact h
  · exact h.setCount ..

theorem State.wf.ownTick {s : State} (h : s.wf) (old new : Word) (w : Option Counter) (c : Counter) :
    (State.ownTick old new w s c).wf := by
  unfold State.ownTick; split
  · exact h
  · exact h.setCount ..

theorem State.wf.withDraws {s : State} (h : s.wf) (n : Nat) : (s.withDraws n).wf :=
  ⟨h.params, h.harts, h.cells, h.absentCy, h.text⟩

theorem State.wf.withSchedule {s : State} (h : s.wf) (l : List Move) : (s.withSchedule l).wf :=
  ⟨h.params, h.harts, h.cells, h.absentCy, h.text⟩

theorem State.wf.writeInhibit {s : State} (h : s.wf) (v : DWord) : (s.writeInhibit v).wf := by
  unfold State.writeInhibit; split
  · rename_i hi
    refine State.wf.setCycle (h.withHart (x := s.hart.withInhibit (legalize v &&& ownMask)) { h.hart with legal := ?_, absentRegister := fun hn => ?_ }) fun hn => ?_
    · simp only [Hart.withInhibit_inhibit, BitVec.and_assoc, BitVec.and_not_self]
      simp
    · rw [hi] at hn; cases hn
    · rw [State.withHart_cfg, hi] at hn; cases hn
  · exact h

theorem State.wf.writeCsr {s : State} (h : s.wf) (c : Csr) (v : DWord) : (s.writeCsr c v).wf := by
  cases c with
  | inhibit => exact h.writeInhibit v
  | low c => exact h.setCount ..
  | high c => exact h.setCount ..
  | absent => exact h

theorem State.wf.ticksBeforeRead {s : State} (h : s.wf) (c : Csr) : (s.ticksBeforeRead c).wf := by
  unfold State.ticksBeforeRead; split
  · exact h
  · exact h
  · exact h.tick ..

theorem State.wf.writeX {s : State} (h : s.wf) (r : Fin 32) (v : DWord) : (s.writeX r v).wf := by
  rcases s.writeX_cases r v with ⟨-, e⟩ | ⟨hr, e⟩
  · rw [e]; exact h
  · rw [e]
    refine h.withHart { h.hart with zeroReg := ?_, regWidth := fun q => ?_ }
    · have : (r : Nat) ≠ (0 : Fin 32) := fun e => hr (Fin.ext e)
      simp only [Hart.withX_x, Fin.getElem_fin, Vector.getElem_set_ne _ _ this]
      exact h.hart.zeroReg
    · simp only [Hart.withX_x, Fin.getElem_fin, Vector.getElem_set]
      split
      · simp
      · exact h.hart.regWidth q

/-- Moving an aligned pc on keeps it aligned. -/
theorem truncX_aligned (l : Xlen) (v : DWord) (h : v.toNat % 4 = 0) : (truncX l (v + 4#64)).toNat % 4 = 0 := by
  rw [truncX_mod4, BitVec.toNat_add]
  simp only [BitVec.toNat_ofNat]; omega

theorem State.wf.advancePc {s : State} (h : s.wf) : s.advancePc.wf := by
  refine h.withHart { h.hart with pcWidth := by simp, pcAligned := ?_ }
  refine truncX_aligned _ _ ?_
  rw [State.pcValue, h.hart.pcWidth]
  exact h.hart.pcAligned

theorem State.wf.select {s : State} (h : s.wf) (b : Nat) : (s.select b).wf := by
  by_cases hb : b < s.harts.length
  · rw [select_eq hb]
    have hh : (s.withHarts (s.harts.take b) s.harts[b] (s.harts.drop (b + 1))).harts = s.harts := by
      show s.harts.take b ++ s.harts[b] :: s.harts.drop (b + 1) = s.harts
      rw [← List.drop_eq_getElem_cons hb, List.take_append_drop]
    exact ⟨h.params, by rw [hh]; exact h.harts, by rw [hh]; exact h.cells, h.absentCy, h.text⟩
  · have : s.select b = s := by
      unfold State.select
      rw [List.drop_eq_nil_of_le (by omega)]
    rw [this]; exact h

end Sys2Proof.Machine
end

