-- ==== Sys2Proof/Tests/Slice0.lean ====
section
/-! SUPPORT. Tests. Expected results are those of `spec/95_test_vectors.md` (tables T2 to T13), named in each docstring,
or follow from the quoted rule. At the end, for every obligation with hypotheses, a concrete state that meets them. -/

namespace Sys2Proof.Tests

open Sys2Proof.Machine

/-! ### A small machine -/

/-- Registers with `x5` and `x6` set. -/
def regs (x5 x6 : DWord) : Vector DWord 32 :=
  #v[0#64, 0#64, 0#64, 0#64, 0#64, x5, x6, 0#64, 0#64, 0#64, 0#64, 0#64, 0#64, 0#64, 0#64, 0#64,
    0#64, 0#64, 0#64, 0#64, 0#64, 0#64, 0#64, 0#64, 0#64, 0#64, 0#64, 0#64, 0#64, 0#64, 0#64, 0#64]

/-- A hart at pc 0x1000 (`spec/95_test_vectors.md`) with given own bits and `minstret`. -/
def hartOf (priv : Mode) (inhibit : Word) (x5 x6 minstret : DWord) : Hart where
  x := regs x5 x6
  pc := 0x1000#64
  priv := priv
  inhibit := inhibit
  minstret := minstret
  hpm := #v[9#64, 9#64, 0#64, 0#64, 0#64, 0#64, 0#64, 0#64]

/-- One hart whose register reads `reg`, with the word `w` at its pc. -/
def mach (reg : Word) (x5 x6 : DWord) (priv : Mode := .M) (mcycle : DWord := 100#64) (minstret : DWord := 40#64)
    (w : Word := 0x320023F3#32) : State where
  cfg := Params.default
  left := []
  hart := hartOf priv (reg &&& ownMask) x5 x6 minstret
  right := []
  cycles := [{ cy := reg.getLsbD 0, count := mcycle }]
  mem := memWriteBytes [] 0x1000 (bytesOfWord w)
  schedule := []
  draws := 1

/-- The same with XLEN 64. -/
def wide (s : State) : State := { s with cfg := { s.cfg with xlen := .x64 } }

/-- Two harts of one core that share `mcycle`, as before SH1 of table T13: A reads 0x4, B reads 0x8. -/
def pair : State where
  cfg := { Params.default with mcycleShared := true, coreOf := [0, 0] }
  left := []
  hart := hartOf .M 0x4#32 0#64 0#64 40#64
  right := [hartOf .M 0x8#32 0#64 0#64 40#64]
  cycles := [{ cy := false, count := 100#64 }]
  mem := memWriteBytes [] 0x1000 (bytesOfWord 0x3200E073#32)
  schedule := []
  draws := 1

/-- A machine whose hart has no `mcountinhibit`. -/
def without (s : State) : State := { s with cfg := { s.cfg with implemented := false } }

/-- The same with a given `INHIBIT_SAMPLE`. -/
def sampling (m : InhibitSample) (s : State) : State := { s with cfg := { s.cfg with inhibitSample := m } }

/-- A view of the next state of an outcome. -/
def after {α : Type} (o : Host.Outcome State Fault Refusal) (f : State → α) : Option α :=
  match o with
  | .next t => some (f t)
  | _ => none

/-- The word an outcome's illegal-instruction exception names. -/
def illegalWord (o : Host.Outcome State Fault Refusal) : Option Word :=
  match o with
  | .fault (.illegalInstruction info) => some info.word
  | _ => none

/-- The CSR address an outcome refuses. -/
def refusedCsr (o : Host.Outcome State Fault Refusal) : Option Nat :=
  match o with
  | .refused (.csrNotInScope a) => some a
  | _ => none

/-! ### WellFormed: an ill-formed term for each check -/

/-- A CSR address of 13 bits (rule R51). -/
theorem test_wf_refuses_wide_csr : Instr.wf (.csrrw 1 0x1000 2) = false := by decide
/-- An immediate of 6 bits (rule R52). -/
theorem test_wf_refuses_wide_uimm : Instr.wf (.csrrsi 1 0x320 32) = false := by decide
/-- Both fields at their largest. -/
theorem test_wf_accepts_largest : Instr.wf (.csrrci 31 0xFFF 31) = true := by decide

/-! ### Decode: words written out field by field from rule R50 (csr, rs1 or uimm, funct3, rd, opcode) -/

theorem test_decode_csrrw : decodeWord (0x320#12 ++ 5#5 ++ 0b001#3 ++ 6#5 ++ 0b1110011#7) = .ok (.csrrw 6 0x320 5) := by decide
theorem test_decode_csrrs : decodeWord (0xB02#12 ++ 0#5 ++ 0b010#3 ++ 11#5 ++ 0b1110011#7) = .ok (.csrrs 11 0xB02 0) := by decide
theorem test_decode_csrrc : decodeWord (0x320#12 ++ 5#5 ++ 0b011#3 ++ 31#5 ++ 0b1110011#7) = .ok (.csrrc 31 0x320 5) := by decide
theorem test_decode_csrrwi : decodeWord (0x320#12 ++ 31#5 ++ 0b101#3 ++ 5#5 ++ 0b1110011#7) = .ok (.csrrwi 5 0x320 31) := by decide
theorem test_decode_csrrsi : decodeWord (0x320#12 ++ 5#5 ++ 0b110#3 ++ 0#5 ++ 0b1110011#7) = .ok (.csrrsi 0 0x320 5) := by decide
theorem test_decode_csrrci : decodeWord (0x320#12 ++ 4#5 ++ 0b111#3 ++ 6#5 ++ 0b1110011#7) = .ok (.csrrci 6 0x320 4) := by decide
/-- T3's words that are not in scope. -/
theorem test_decode_not_in_scope :
    decodeWord 0x32004073#32 = .error (.noSuchFunct3 0x32004073#32) ∧
    decodeWord 0x32000073#32 = .error (.otherSystem 0x32000073#32) ∧
    decodeWord 0x00000013#32 = .error (.notSystem 0x00000013#32) := by decide
/-- Rule R57's pseudo-instruction table. -/
theorem test_pseudo_words :
    encode (pseudoCsrr 5 0x320) = 0x320022F3#32 ∧ encode (pseudoCsrw 0x320 5) = 0x32029073#32 ∧
    encode (pseudoCsrs 0x320 5) = 0x3202A073#32 ∧ encode (pseudoCsrc 0x320 5) = 0x3202B073#32 ∧
    encode (pseudoCsrwi 0x320 5) = 0x3202D073#32 ∧ encode (pseudoCsrsi 0x320 5) = 0x3202E073#32 ∧
    encode (pseudoCsrci 0x320 5) = 0x3202F073#32 := by decide
/-- The host's numbering: the least significant byte of the word is the first. -/
theorem test_decodeTableWord : decodeTableWord 32 0x32029373 = some (.csrrw 6 0x320 5) := by decide

/-! ### legalize, table T2 -/

theorem test_legalize :
    legalize 0xFFFFFFFF#64 = 0x7FD#32 ∧ legalize 0x2#64 = 0#32 ∧ legalize 0x800#64 = 0#32 ∧ legalize 0x400#64 = 0x400#32 ∧
    legalize 0xAAAAAAAA#64 = 0x2A8#32 ∧ legalize 0x55555555#64 = 0x555#32 ∧
    legalize 0xFFFFFFFF00000000#64 = 0#32 ∧ legalize 0x100000004#64 = 0x4#32 := by decide

/-! ### One step of each instruction, through fetch and decode -/

/-- T4 W1. -/
theorem test_csrrw_W1 : after (step (mach 0x5#32 0xFFFFFFFF#64 0xDEAD#64 (w := 0x32029373#32)))
    (fun t => (t.inhibitValue, t.readX 6, t.pcValue)) = some (0x7FD#32, 0x5#64, 0x1004#64) := by decide
/-- T4 W3: the source is also the destination. -/
theorem test_csrrw_W3 : after (step (mach 0x400#32 0xC#64 0#64 (w := 0x320292F3#32)))
    (fun t => (t.inhibitValue, t.readX 5)) = some (0xC#32, 0x400#64) := by decide
/-- T5 RS1: no write. -/
theorem test_csrrs_RS1 : after (step (mach 0x2A8#32 0xFFFFFFFF#64 0#64 (w := 0x320023F3#32)))
    (fun t => (t.inhibitValue, t.readX 7)) = some (0x2A8#32, 0x2A8#64) := by decide
/-- T5 RS8: the fault comes also to a form that does not write. -/
theorem test_csrrs_RS8 : illegalWord (step (mach 0x5#32 0#64 0#64 (priv := .S) (w := 0x320023F3#32))) = some 0x320023F3#32 := by
  decide
/-- T6 RC4: the source is also the destination. -/
theorem test_csrrc_RC4 : after (step (mach 0x1D#32 0x18#64 0#64 (w := 0x3202B2F3#32)))
    (fun t => (t.inhibitValue, t.readX 5)) = some (0x5#32, 0x1D#64) := by decide
/-- T6 RC6: XLEN 64, bits 63:32 of the mask clear nothing. -/
theorem test_csrrc_RC6 : after (step (wide (mach 0x5#32 0x100000004#64 0#64 (w := 0x3202B073#32)))) State.inhibitValue =
    some 0x1#32 := by decide
/-- T7 WI1. -/
theorem test_csrrwi_WI1 : after (step (mach 0x7FD#32 0#64 0#64 (w := 0x320FD2F3#32)))
    (fun t => (t.inhibitValue, t.readX 5)) = some (0x1D#32, 0x7FD#64) := by decide
/-- T7 WI2: the write takes place for the immediate 0. -/
theorem test_csrrwi_WI2 : after (step (mach 0x7FD#32 0#64 0#64 (w := 0x32005073#32))) State.inhibitValue = some 0#32 := by
  decide
/-- T8 SI4. -/
theorem test_csrrsi_SI4 : after (step (mach 0x400#32 0#64 0#64 (w := 0x320FE373#32)))
    (fun t => (t.inhibitValue, t.readX 6)) = some (0x41D#32, 0x400#64) := by decide
/-- T8 SI6. -/
theorem test_csrrsi_SI6 : illegalWord (step (mach 0x19#32 0#64 0#64 (priv := .U) (w := 0x320063F3#32))) = some 0x320063F3#32 := by
  decide
/-- T9 CI4: `HPM5` to `HPM10` are kept. -/
theorem test_csrrci_CI4 : after (step (mach 0x7FD#32 0#64 0#64 (w := 0x320FF373#32)))
    (fun t => (t.inhibitValue, t.readX 6)) = some (0x7E0#32, 0x7FD#64) := by decide
/-- T9 CI3: no write for the immediate 0. -/
theorem test_csrrci_CI3 : after (step (mach 0x7FD#32 0#64 0#64 (w := 0x32007473#32)))
    (fun t => (t.inhibitValue, t.readX 8)) = some (0x7FD#32, 0x7FD#64) := by decide

/-! ### The gated counters, table T10 -/

/-- K1, XLEN 32 and 64. -/
theorem test_K1 :
    after (exec (.csrrs 10 0xB00 0) (mach 0x1#32 0#64 0#64 (mcycle := 0x100000064#64)))
      (fun t => (t.readX 10, t.count .mcycle)) = some (0x64#64, 0x100000064#64) ∧
    after (exec (.csrrs 10 0xB00 0) (wide (mach 0x1#32 0#64 0#64 (mcycle := 0x100000064#64)))) (fun t => t.readX 10) =
      some 0x100000064#64 := by decide
/-- K2: the upper half, and its absence with XLEN 64. -/
theorem test_K2 :
    after (exec (.csrrs 10 0xB80 0) (mach 0x1#32 0#64 0#64 (mcycle := 0x100000064#64))) (fun t => t.readX 10) = some 1#64 ∧
    refusedCsr (exec (.csrrs 10 0xB80 0) (wide (mach 0x1#32 0#64 0#64))) = some 0xB80 := by decide
/-- K3: `mhpmcounter11`; T3: `0x300` and the view `cycle` are not in scope. -/
theorem test_K3_and_scope :
    after (exec (.csrrs 14 0xB0B 0) (mach 0x1#32 0#64 0#64)) (fun t => t.readX 14) = some 0#64 ∧
    refusedCsr (exec (.csrrs 10 0x300 0) (mach 0x1#32 0#64 0#64)) = some 0x300 ∧
    refusedCsr (exec (.csrrs 10 0xC00 0) (mach 0x1#32 0#64 0#64)) = some 0xC00 := by decide
/-- K5: the written value of `minstret` stands. -/
theorem test_K5 : after (exec (.csrrw 0 0xB02 5) (mach 0#32 0x3E8#64 0#64 (minstret := 7#64))) (fun t => t.count .minstret) =
    some 1000#64 := by decide
/-- K6: a read of `minstret` leaves the reading instruction out. -/
theorem test_K6 : after (exec (.csrrs 11 0xB02 0) (mach 0#32 0#64 0#64 (minstret := 1000#64)))
    (fun t => (t.readX 11, t.count .minstret)) = some (1000#64, 1001#64) := by decide
/-- K7. -/
theorem test_K7 : illegalWord (exec (.csrrs 10 0xB00 0) (mach 0#32 0#64 0#64 (priv := .U))) = some 0xB0002573#32 := by decide

/-! ### Ticks, table T11, and sharing, table T13 -/

/-- TK2, TK5, TK6. -/
theorem test_ticks_mcycle :
    ((mach 0x1#32 0#64 0#64).tick .mcycle 1).count .mcycle = 100#64 ∧
    ((mach 0x4#32 0#64 0#64).tick .mcycle 3).count .mcycle = 103#64 ∧
    ((mach 0#32 0#64 0#64 (mcycle := 0xFFFFFFFFFFFFFFFF#64)).tick .mcycle 1).count .mcycle = 0#64 := by decide
/-- TK3, TK11 and TK9. -/
theorem test_ticks_others :
    ((mach 0x1#32 0#64 0#64).tick .minstret 1).count .minstret = 41#64 ∧
    ((mach 0x4#32 0#64 0#64 (priv := .U)).tick .minstret 1).count .minstret = 40#64 ∧
    ((mach 0x8#32 0#64 0#64).tick (.mhpmcounter 0) 1).count (.mhpmcounter 0) = 9#64 ∧
    ((mach 0x8#32 0#64 0#64).tick (.mhpmcounter 1) 1).count (.mhpmcounter 1) = 10#64 := by decide
/-- TK13: without the register nothing is inhibited. -/
theorem test_TK13 : ((without (mach 0x1#32 0#64 0#64)).tick .mcycle 1).count .mcycle = 101#64 := by decide
/-- SH1: A sets the shared `CY`, B sees it, and the `mcycle` of both stops. -/
theorem test_SH1 : after (step pair) (fun t => (t.registerOf 0, t.registerOf 1, (t.select 1).inhibited .mcycle)) =
    some (0x5#32, 0x9#32, true) := by decide

/-! ### Reset and the first step after it -/

/-- An instruction placed at the reset pc is the first that runs, although the reset values are free. -/
theorem test_first_step_after_reset :
    after (step (State.reset.withFetchWord 32 0x320FD073)) (fun t => (t.inhibitValue, t.pcValue, t.hart.priv)) =
      some (0x1D#32, 4#64, Mode.M) := by decide
/-- With nothing loaded the fetch stops by name. -/
theorem test_reset_has_no_program : step State.reset = .fault (.noProgramText 0) := by rfl

/-! ### Witnesses: states and operands that meet an obligation's hypotheses -/

theorem witness_DecodeOfEncodeGivesInstrBack : Instr.wf (.csrrci 31 0xFFF 31) = true ∧ Instr.wf (.csrrw 0 0 0) = true := by decide
theorem witness_EncodeOfDecodeGivesWordBack : decodeWord 0xFFFFFFF3#32 = .ok (.csrrci 31 0xFFF 31) := by decide
theorem witness_OtherWordsRejectedByName :
    (0x00000001#32).extractLsb' 0 2 ≠ 0b11#2 ∧
    ((0x00000013#32).extractLsb' 0 2 = 0b11#2 ∧ (0x00000013#32).extractLsb' 0 7 ≠ 0x73#7) ∧
    ((0x00000073#32).extractLsb' 0 7 = 0x73#7 ∧ (0x00000073#32).extractLsb' 12 3 = 0b000#3) ∧
    ((0x00004073#32).extractLsb' 0 7 = 0x73#7 ∧ (0x00004073#32).extractLsb' 12 3 = 0b100#3) ∧
    ((0x00007073#32).extractLsb' 0 7 = 0x73#7 ∧ (0x00007073#32).extractLsb' 12 3 ≠ 0b000#3 ∧
      (0x00007073#32).extractLsb' 12 3 ≠ 0b100#3) := by decide
theorem witness_StepRunsDecodedInstr :
    ∃ bytes rest i, (mach 0#32 0#64 0#64).fetch = .ok bytes ∧ decode bytes = .ok (i, rest) ∧ (mach 0#32 0#64 0#64).schedule = [] :=
  ⟨_, _, _, rfl, rfl, rfl⟩
theorem witness_StepRunsDecodedInstr_run :
    ∃ bytes rest i l, ((mach 0#32 0#64 0#64).withSchedule [.run]).fetch = .ok bytes ∧ decode bytes = .ok (i, rest) ∧
      ((mach 0#32 0#64 0#64).withSchedule [.run]).schedule = .run :: l :=
  ⟨_, _, _, _, rfl, rfl, rfl⟩
theorem witness_StepRunsEncodedInstrAtPc :
    Instr.wf (.csrrs 7 0x320 0) = true ∧ (mach 0#32 0#64 0#64).schedule = [] ∧ (mach 0#32 0#64 0#64).pcValue.toNat % 4 = 0 ∧
    memReadBytes (mach 0#32 0#64 0#64).mem (mach 0#32 0#64 0#64).pcValue.toNat 4 = .ok (bytesOfWord (encode (.csrrs 7 0x320 0))) := by
  refine ⟨by decide, rfl, by decide, rfl⟩
theorem witness_PlacedWordRunsNext :
    Instr.wf (.csrrwi 0 0x320 31) = true ∧ State.reset.schedule = [] ∧ State.reset.pcValue.toNat % 4 = 0 := by decide
theorem witness_ScheduledMovesComplete (s : State) :
    (s.withSchedule [.tick .mcycle 3]).schedule = .tick .mcycle 3 :: [] ∧ (s.withSchedule [.select 1]).schedule = .select 1 :: [] ∧
    (s.withSchedule [.reset]).schedule = .reset :: [] := ⟨rfl, rfl, rfl⟩
theorem witness_StepStopsByName :
    State.reset.schedule = [] ∧ State.reset.pcValue.toNat % 4 = 0 ∧ memRead State.reset.mem State.reset.pcValue.toNat = none ∧
    (State.withHart (mach 0#32 0#64 0#64) ((mach 0#32 0#64 0#64).hart.withPc 0x1002#64)).pcValue.toNat % 4 ≠ 0 := by decide
theorem witness_StepStopsByName_word :
    memReadBytes (mach 0#32 0#64 0#64 (w := 0x00000013#32)).mem (mach 0#32 0#64 0#64 (w := 0x00000013#32)).pcValue.toNat 4 =
      .ok (bytesOfWord 0x00000013#32) ∧
    decodeWord 0x00000013#32 = .error (.notSystem 0x00000013#32) := ⟨rfl, by decide⟩
/-- Both cases of the six statements on `0x320`, and of the ones about machine mode. -/
theorem witness_OnMcountinhibit :
    ((mach 0#32 0#64 0#64).cfg.implemented = true ∧ (mach 0#32 0#64 0#64).hart.priv = .M) ∧
    ¬ ((mach 0#32 0#64 0#64 (priv := .U)).cfg.implemented = true ∧ (mach 0#32 0#64 0#64 (priv := .U)).hart.priv = .M) ∧
    ¬ ((without (mach 0#32 0#64 0#64)).cfg.implemented = true ∧ (without (mach 0#32 0#64 0#64)).hart.priv = .M) := by decide
theorem witness_ImmediateReachesFourFields :
    31 < 32 ∧ 0 < 32 ∧ (mach 0x7FD#32 0#64 0#64).cfg.implemented = true ∧ (mach 0x7FD#32 0#64 0#64).hart.priv = .M := by decide
theorem witness_WritingZeroEnablesEveryCounter :
    (mach 0x7FD#32 0#64 0#64).cfg.implemented = true ∧ (mach 0x7FD#32 0#64 0#64).hart.priv = .M := by decide
/-- The first destination may be `x0`, the second not. -/
theorem witness_ReadingTwiceGivesSameValue :
    (mach 0x5#32 0#64 0#64).cfg.implemented = true ∧ (mach 0x5#32 0#64 0#64).hart.priv = .M ∧ (31 : Fin 32) ≠ 0 := by decide
theorem witness_WritingTwiceIsWritingOnce :
    (wide (mach 0x5#32 0x100000004#64 0#64)).cfg.implemented = true ∧ (wide (mach 0x5#32 0x100000004#64 0#64)).hart.priv = .M := by
  decide
theorem witness_AccessBelowMachineModeRaisesIllegal :
    (Instr.csrrs 7 0x320 0).csrAddr = 0x320 ∧ (mach 0#32 0#64 0#64 (priv := .U)).hart.priv ≠ .M ∧
    (without (mach 0#32 0#64 0#64)).cfg.implemented = false ∧
    selectCsr (mach 0#32 0#64 0#64 (priv := .U)).cfg.xlen (Instr.csrrs 7 0xB9F 0).csrAddr = some .absent := by decide
theorem witness_AccessInMachineModeCompletes :
    selectCsr (mach 0#32 0#64 0#64).cfg.xlen (Instr.csrrs 7 0xB8A 0).csrAddr = some (.high (.mhpmcounter 7)) ∧
    (mach 0#32 0#64 0#64).hart.priv = .M ∧ (mach 0#32 0#64 0#64).cfg.implemented = true := by decide
theorem witness_ReadOnlyBitsReadZero : (1 = 1 ∨ 11 ≤ 1) ∧ (11 = 1 ∨ 11 ≤ 11) := by decide
theorem witness_WritableBitsAreKept : (mach 0#32 0#64 0#64).cfg.implemented = true ∧ (10 = 0 ∨ 10 = 2 ∨ (3 ≤ 10 ∧ 10 ≤ 10)) := by decide
theorem witness_AbsentRegisterActsAsZero :
    (without (mach 0x7FD#32 0#64 0#64)).cfg.implemented = false ∧
    counterExists (without (mach 0x7FD#32 0#64 0#64)).cfg (.mhpmcounter 7) = true := by decide
/-- A sharing hart; and, without sharing, a hart with another cell. -/
theorem witness_WriteOfSharedCyIsVisible :
    (pair.cfg.implemented = true ∧ pair.hart.priv = .M ∧ 1 < pair.harts.length ∧ 1 ≠ pair.hartNumber ∧
      cellNumber pair.cfg 1 = pair.ownCell) ∧
    cellNumber { pair.cfg with mcycleShared := false } 1 ≠ (State.ownCell { pair with cfg := { pair.cfg with mcycleShared := false } }) := by
  decide
/-- Two harts of one core, and two harts of two cores. -/
theorem witness_CycleCellIsSharedByCore :
    Params.default.mcycleShared = false ∧ pair.cfg.mcycleShared = true ∧ pair.cfg.coreOf[0]? = some 0 ∧
    pair.cfg.coreOf[1]? = some 0 ∧ Params.mcycleShared { pair.cfg with coreOf := [3, 1] } = true ∧
    (Params.coreOf { pair.cfg with coreOf := [3, 1] })[0]? = some 3 ∧
    (Params.coreOf { pair.cfg with coreOf := [3, 1] })[1]? = some 1 := by decide
/-- The lowest and the highest counter, a form that writes and one that does not, both XLENs. -/
theorem witness_CounterAccessAtLowAddress :
    counterExists (mach 0#32 0#64 0#64).cfg .mcycle = true ∧ (Instr.csrrw 6 0xB00 5).csrAddr = 0xB00 + counterNumber .mcycle ∧
    counterExists (mach 0#32 0#64 0#64).cfg (.mhpmcounter 7) = true ∧
    (Instr.csrrsi 6 0xB0A 0).csrAddr = 0xB00 + counterNumber (.mhpmcounter 7) ∧
    (mach 0#32 0#64 0#64).hart.priv = .M ∧ (mach 0#32 0#64 0#64).cfg.xlen = .x32 ∧ (wide (mach 0#32 0#64 0#64)).cfg.xlen = .x64 := by
  decide
theorem witness_CounterAccessAtHighAddress :
    (mach 0#32 0#64 0#64).cfg.xlen = .x32 ∧ counterExists (mach 0#32 0#64 0#64).cfg (.mhpmcounter 7) = true ∧
    (Instr.csrrc 6 0xB8A 5).csrAddr = 0xB80 + counterNumber (.mhpmcounter 7) ∧
    (Instr.csrrc 6 0xB80 0).csrAddr = 0xB80 + counterNumber .mcycle ∧ (mach 0#32 0#64 0#64).hart.priv = .M := by decide
/-- Numbers 11 and 31 have no counter. -/
theorem witness_AbsentCounterReadsZero :
    (∀ c ∈ allCounters, counterNumber c = 11 → counterExists (mach 0#32 0#64 0#64).cfg c = false) ∧
    (∀ c ∈ allCounters, counterNumber c = 31 → counterExists (mach 0#32 0#64 0#64).cfg c = false) ∧
    (Instr.csrrs 6 0xB0B 0).csrAddr = 0xB00 + 11 ∧ (Instr.csrrw 6 0xB9F 5).csrAddr = 0xB80 + 31 ∧
    (mach 0#32 0#64 0#64).cfg.xlen = .x32 ∧ (mach 0#32 0#64 0#64).hart.priv = .M := by decide
/-- The addresses beside rule R72's ranges. -/
theorem witness_OtherCsrRefusedByName :
    (∀ a ∈ [0x31F, 0x321, 0xAFF, 0xB01, 0xB20, 0xB7F, 0xB81, 0xBA0, 0xC00],
      (a ≠ 0x320 ∧ (a < 0xB00 ∨ 0xB20 ≤ a ∨ a = 0xB01)) ∧ (a < 0xB80 ∨ 0xBA0 ≤ a ∨ a = 0xB81)) ∧
    (wide (mach 0#32 0#64 0#64)).cfg.xlen ≠ .x32 := by decide
theorem witness_TickIsGated :
    counterExists (mach 0x1#32 0#64 0#64).cfg .mcycle = true ∧ (mach 0x1#32 0#64 0#64).inhibited .mcycle = true ∧
    (mach 0x4#32 0#64 0#64).inhibited .mcycle = false := by decide
/-- A next state with `IR` clear before and after, with `IR` set, and with `IR` changed. -/
theorem witness_RetirementIsCountedOnce :
    after (exec (.csrrs 7 0x320 0) (mach 0#32 0#64 0#64)) (fun t => t.inhibited .minstret) = some false ∧
    (mach 0#32 0#64 0#64).inhibited .minstret = false ∧
    after (exec (.csrrs 7 0x320 0) (mach 0x4#32 0#64 0#64)) (fun t => t.inhibited .minstret) = some true ∧
    (mach 0x4#32 0#64 0#64).inhibited .minstret = true ∧
    after (exec (.csrrsi 0 0x320 4) (mach 0#32 0#64 0#64)) (fun t => t.inhibited .minstret) = some true := by decide
/-- An instruction at another address, and a form that only reads `minstret`. -/
theorem witness_RetirementIsCountedOnce_read :
    ¬ WritesCounter (.csrrs 7 0x320 0) (mach 0#32 0#64 0#64) .minstret ∧
    ¬ WritesCounter (.csrrs 7 0xB02 0) (mach 0#32 0#64 0#64) .minstret ∧
    after (exec (.csrrs 7 0xB02 0) (mach 0#32 0#64 0#64)) (fun t => t.inhibited .minstret) = some false :=
  ⟨fun h => absurd h.1 (by decide), fun h => h.2.elim fun _ ho => ho rfl, by decide⟩
/-- With `pre` and with `post`. -/
theorem witness_RetirementIsCountedOnce_sample :
    after (exec (.csrrsi 0 0x320 4) (sampling .pre (mach 0#32 0#64 0#64))) (fun t => t.count .minstret) = some 41#64 ∧
    after (exec (.csrrsi 0 0x320 4) (sampling .post (mach 0#32 0#64 0#64))) (fun t => t.count .minstret) = some 40#64 := by
  decide
theorem witness_ReadOfMinstretLeavesItselfOut : (mach 0#32 0#64 0#64).hart.priv = .M ∧ (11 : Fin 32) ≠ 0 := by decide
theorem witness_GeneralRegistersReadBack : (31 : Fin 32) ≠ 0 ∧ (30 : Fin 32) ≠ 31 := by decide
theorem witness_ProgramTextReadsBack :
    Memory.wf [(4, 0x73#8), (6, 0x10#8)] = true ∧ memWrite [(4, 0x73#8), (6, 0x10#8)] 5 0x20#8 = [(4, 0x73#8), (5, 0x20#8), (6, 0x10#8)] := by
  decide
theorem witness_ResetIsWellFormed : Params.wf Params.default := by rfl
theorem witness_ResetEventRedrawsEveryHart :
    (pair.withSchedule [.reset, .run]).schedule = .reset :: [.run] ∧ 1 < pair.harts.length ∧
    cellNumber pair.cfg 1 < pair.cycles.length ∧ pair.cfg.implemented = true := by decide
/-- The last clauses: a hart without the register, and a counter that is not implemented. -/
theorem witness_ResetEventRedrawsEveryHart_absent :
    ((without pair).withSchedule [.reset]).cfg.implemented = false ∧
    (Params.hpmImplemented { pair.cfg with hpmImplemented := Vector.replicate 8 false })[(7 : Fin 8)] = false := by decide
theorem witness_ReadsAfterResetReturnTheDraw :
    (pair.withSchedule [.reset]).schedule = .reset :: [] ∧ pair.cfg.implemented = true ∧ pair.ownCell < pair.cycles.length ∧
    (31 : Fin 32) ≠ 0 := by decide
/-- A well-formed machine whose next step answers a next state. -/
theorem witness_EveryStepKeepsWellFormedness :
    State.wf (mach 0x5#32 0xFFFFFFFF#64 0#64) ∧ ∃ t, step (mach 0x5#32 0xFFFFFFFF#64 0#64) = .next t := by
  refine ⟨⟨rfl, ?_, ?_, ?_, rfl⟩, _, rfl⟩
  · intro h hh
    simp only [State.harts, mach, List.nil_append, List.mem_singleton] at hh
    subst hh
    exact ⟨by decide, by decide, by decide, by decide, by decide, by decide, by decide, by decide⟩
  · decide
  · intro h; cases h
/-- A step after which the other hart of the core reads another value, and one after which the hart itself does. -/
theorem witness_OnlyWritesAndResetChangeTheRegister :
    after (step pair) (fun t => (t.registerOf 0 != pair.registerOf 0, t.registerOf 1 != pair.registerOf 1)) = some (true, true) ∧
    1 < pair.harts.length := by decide
theorem witness_NoStepChangesParametersOrText : ∃ t, step pair = .next t := ⟨_, rfl⟩
theorem witness_OnlyResetChangesMode :
    (∃ t, step pair = .next t) ∧ ¬ ∃ l, pair.schedule = .reset :: l := by
  refine ⟨⟨_, rfl⟩, ?_⟩
  rintro ⟨l, h⟩
  cases h
theorem witness_InhibitedCounterStandsStill :
    ¬ WritesCounter (.csrrs 7 0x320 0) (mach 0x1#32 0#64 0#64) .mcycle ∧ (mach 0x1#32 0#64 0#64).inhibited .mcycle = true ∧
    after (exec (.csrrs 7 0x320 0) (mach 0x1#32 0#64 0#64)) (fun t => t.inhibited .mcycle) = some true :=
  ⟨fun h => absurd h.1 (by decide), by decide, by decide⟩
/-- With `pre` an instruction that clears `CY`, with `post` one that sets `HPM3` (rule R86): its own ticks are lost. -/
theorem witness_InhibitedCounterStandsStill_sample :
    after (exec (.csrrci 0 0x320 1) (sampling .pre (mach 0x1#32 0#64 0#64)))
      (fun t => (t.inhibited .mcycle, t.count .mcycle)) = some (false, 100#64) ∧
    after (exec (.csrrsi 0 0x320 8) (sampling .post (mach 0#32 0#64 0#64)))
      (fun t => (t.inhibited (.mhpmcounter 0), t.count (.mhpmcounter 0))) = some (true, 9#64) := by decide

end Sys2Proof.Tests
end

/-! PROOFS. Family `00_scope.md`: the writable bits of the register, and what decides the outcome of an access. -/

namespace Sys2Proof.Machine

/-! ### The writable bits -/

/-- Settles O24: the register holds `legalize` of the written value, and `legalize` keeps the ten writable bits. -/
theorem writableBitsAreKept : Obligations.WritableBitsAreKept := by
  intro s v n himp hn
  rw [s.inhibitValue_writeInhibit v himp, legalize_getLsbD, decide_eq_true hn, Bool.and_true]

/-! ### The outcome of an instruction

Which outcome `exec` answers is decided by the scope of the address (rule R72) and the access check (rule R60) alone:
one equivalence per outcome. -/

/-- An instruction answers a next state exactly when its CSR is in scope and may be accessed. -/
theorem exec_next_iff (i : Instr) (s : State) :
    (∃ t, exec i s = .next t) ↔ ∃ c, selectCsr s.cfg.xlen i.csrAddr = some c ∧ s.mayAccess c = true := by
  constructor
  · rintro ⟨t, ht⟩
    obtain ⟨c, hc, hm, -⟩ := exec_next ht
    exact ⟨c, hc, hm⟩
  · rintro ⟨c, hc, hm⟩
    exact ⟨_, (exec_eq_csrInstr i s).trans (s.csrInstr_completes _ _ _ _ _ c hc hm)⟩

/-- An instruction is refused exactly when its address is out of scope, and the refusal names the address. -/
theorem exec_refused_iff (i : Instr) (s : State) (r : Refusal) :
    exec i s = .refused r ↔ selectCsr s.cfg.xlen i.csrAddr = none ∧ r = .csrNotInScope i.csrAddr := by
  rw [exec_eq_csrInstr]
  cases hc : selectCsr s.cfg.xlen i.csrAddr with
  | none => simp [s.csrInstr_refused _ _ _ _ _ hc, eq_comm]
  | some c =>
    cases hm : s.mayAccess c with
    | true => simp [s.csrInstr_completes _ _ _ _ _ c hc hm]
    | false => simp [s.csrInstr_illegal _ _ _ _ _ c hc hm, State.raiseIllegal]

/-- An instruction raises the exception exactly when its CSR is in scope and the access check fails. -/
theorem raisesIllegal_iff (i : Instr) (s : State) :
    RaisesIllegal i s ↔ ∃ c, selectCsr s.cfg.xlen i.csrAddr = some c ∧ s.mayAccess c = false := by
  constructor
  · rintro ⟨info, hf, -⟩
    cases hc : selectCsr s.cfg.xlen i.csrAddr with
    | none => exact absurd (hf.symm.trans ((exec_refused_iff i s _).2 ⟨hc, rfl⟩)) (by simp)
    | some c =>
      refine ⟨c, rfl, Bool.eq_false_iff.2 fun hm => ?_⟩
      obtain ⟨t, ht⟩ := (exec_next_iff i s).2 ⟨c, hc, hm⟩
      exact absurd (hf.symm.trans ht) (by simp)
  · rintro ⟨c, hc, hm⟩
    exact s.raisesIllegal i c hc hm

/-- The access check looks at nothing but `IMPLEMENTED` and the mode (rules R60, R72). -/
theorem State.mayAccess_congr {s t : State} (hc : t.cfg = s.cfg) (hp : t.hart.priv = s.hart.priv) (c : Csr) :
    t.mayAccess c = s.mayAccess c := by
  unfold State.mayAccess; rw [hc, hp]

/-- Settles O38: a write to the register changes neither the parameters nor the mode, which alone decide the outcome. -/
theorem accessibilityIgnoresInhibitBits : Obligations.AccessibilityIgnoresInhibitBits := by
  intro s v i
  have hsame := s.writeInhibit_sameButCsrs v
  have hmay := State.mayAccess_congr hsame.cfg hsame.priv
  refine ⟨?_, ?_, fun r => ?_, s.count_writeInhibit v⟩
  · simp only [exec_next_iff, hsame.cfg, hmay]
  · simp only [raisesIllegal_iff, hsame.cfg, hmay]
  · simp only [exec_refused_iff, hsame.cfg]

end Sys2Proof.Machine

/-! PROOFS. Family `10_state.md`: the invariant of the machine, what a step runs and leaves alone, the register and
its shared `CY`, the program text, and reset. -/

/-! ### Encoded words -/

namespace Sys2Proof

@[simp] theorem opcodeField_encodeFields (a u : Nat) (f : BitVec 3) (rd : Fin 32) :
    opcodeField (encodeFields a u f rd) = 0b1110011#7 := (encodeFields_extract a u f rd).2.1

@[simp] theorem funct3Field_encodeFields (a u : Nat) (f : BitVec 3) (rd : Fin 32) :
    funct3Field (encodeFields a u f rd) = f := (encodeFields_extract a u f rd).2.2.1

@[simp] theorem rdField_encodeFields (a u : Nat) (f : BitVec 3) (rd : Fin 32) :
    rdField (encodeFields a u f rd) = rd := (encodeFields_extract a u f rd).2.2.2.1

/-- The word of a well-formed instruction decodes to it: `funct3` picks the row, and every field is read back. -/
theorem decodeWord_encode {i : Instr} (h : i.wf = true) : decodeWord (encode i) = .ok i := by
  cases i with
  | csrrw rd a rs1 | csrrs rd a rs1 | csrrc rd a rs1 =>
    have ha : a < 4096 := by simpa [Instr.wf, csrFits] using h
    rw [encode, decodeWord_eq _ (opcodeField_encodeFields ..)]
    simp [csrField_encodeFields ha, rs1Field_encodeFields]
  | csrrwi rd a u | csrrsi rd a u | csrrci rd a u =>
    obtain ⟨ha, hu⟩ : a < 4096 ∧ u < 32 := by simpa [Instr.wf, csrFits, uimmFits] using h
    rw [encode, decodeWord_eq _ (opcodeField_encodeFields ..)]
    simp [csrField_encodeFields ha, uimmField_encodeFields hu]

end Sys2Proof

namespace Sys2Proof.Machine

/-! ### Well-formedness, step by step -/

theorem State.wf.accessed {s : State} (h : s.wf) (c : Csr) (op : CsrOp) (src : Source) :
    (s.accessed c op src).wf := by
  unfold State.accessed
  split
  · exact h.writeCsr ..
  · exact h.ticksBeforeRead c

theorem State.wf.ownTickAll {s : State} (h : s.wf) (old new : Word) (w : Option Counter) :
    (s.ownTickAll old new w).wf :=
  List.foldlRecOn allCounters _ h fun _ hu c _ => hu.ownTick old new w c

theorem State.wf.csrNext {s : State} (h : s.wf) (c : Csr) (rd : Fin 32) (op : CsrOp) (src : Source) :
    (s.csrNext c rd op src).wf :=
  ((((h.accessed c op src).writeX rd (s.accessOld c)).advancePc).ownTickAll ..).withDraws _

theorem State.wf.exec {s t : State} {i : Instr} (h : s.wf) (he : exec i s = .next t) : t.wf := by
  obtain ⟨c, -, -, rfl⟩ := exec_next he
  exact h.csrNext ..

theorem mem_resetAll_harts {s : State} {x : Hart} (h : x ∈ s.resetAll.harts) :
    ∃ n, x = Hart.atReset s.cfg s.draws n :=
  mem_hartsAtReset (resetAll_harts_eq s ▸ h)

@[simp] theorem resetAll_harts_length (s : State) : s.resetAll.harts.length = s.harts.length := by
  rw [resetAll_harts_eq, hartsAtReset_length]

/-- The reset event keeps the number of harts and of cells, so every hart still has its cell. -/
theorem State.wf.resetAll {s : State} (h : s.wf) : s.resetAll.wf where
  params := h.params
  harts x hx := by
    obtain ⟨n, rfl⟩ := mem_resetAll_harts hx
    exact hart_atReset_wf _ _ _ h.params
  cells n hn := by
    have hlen : s.resetAll.cycles.length = s.cycles.length := cellsAtReset_length ..
    rw [hlen]
    exact h.cells n (by simpa using hn)
  absentCy hi := cells_absent _ _ _ hi
  text := h.text

/-- Settles O45: whatever a step does, to the state without the move that called for it, keeps well-formedness. -/
theorem everyStepKeepsWellFormedness : Obligations.EveryStepKeepsWellFormedness := by
  intro s t h hstep
  rcases step_cases hstep with ⟨i, u, -, ⟨l, rfl⟩, he⟩ | ⟨c, k, l, -, rfl⟩ | ⟨b, l, -, rfl⟩ | ⟨l, -, rfl⟩
  · exact (h.withSchedule l).exec he
  · exact (h.withSchedule l).tick c k
  · exact (h.withSchedule l).select b
  · exact (h.withSchedule l).resetAll

/-! ### What a step runs -/

/-- The bytes that stand at an aligned pc are what is fetched. -/
theorem fetch_of_memReadBytes {s : State} {bytes : List Byte} (ha : s.pcValue.toNat % 4 = 0)
    (hm : memReadBytes s.mem s.pcValue.toNat 4 = .ok bytes) : s.fetch = .ok bytes := by
  simp [State.fetch, ha, hm]

/-- With no scheduled move the selected hart runs (log 17). -/
theorem step_of_empty {s : State} (h : s.schedule = []) : step s = s.runHart := by
  simp [step, h]

/-- A scheduled move is performed on the state without it (log 17). -/
theorem step_of_move {s : State} {m : Move} {l : List Move} (h : s.schedule = m :: l) :
    step s = (s.withSchedule l).perform m := by
  simp [step, h]

/-- The fetch does not look at the schedule. -/
@[simp] theorem State.fetch_withSchedule (s : State) (l : List Move) : (s.withSchedule l).fetch = s.fetch := rfl

/-- Settles O6, with and without a scheduled `run`. -/
theorem stepRunsDecodedInstr : Obligations.StepRunsDecodedInstr := by
  intro s bytes rest i hf hd
  refine ⟨fun hs => ?_, fun l hs => ?_⟩
  · rw [step_of_empty hs, runHart_of_decode hf hd]
  · rw [step_of_move hs]
    exact runHart_of_decode ((s.fetch_withSchedule l).trans hf) hd

/-- Settles O7: the fetched bytes of the word decode to the instruction it encodes. -/
theorem stepRunsEncodedInstrAtPc : Obligations.StepRunsEncodedInstrAtPc := by
  intro s i hi hs ha hm
  have hd : decode (bytesOfWord (encode i)) = .ok (i, []) := by
    simpa [decodeWord_encode hi, Except.map] using decode_bytesOfWord (encode i) []
  exact (stepRunsDecodedInstr s _ [] i (fetch_of_memReadBytes ha hm) hd).1 hs

/-- Settles O8: a placed word stands at the pc, so it runs as in O7. -/
theorem placedWordRunsNext : Obligations.PlacedWordRunsNext := by
  intro s i hi hs ha
  refine stepRunsEncodedInstrAtPc _ i hi ?_ ha ?_
  · simp [State.withFetchWord, State.placeInstr, hs, runNext]
  · rw [State.withFetchWord, tableBytes_encode]
    exact memReadBytes_memWriteBytes (bytesOfWord (encode i)) s.mem s.pcValue.toNat

/-- Settles O9: each of the three moves answers by itself, whatever the state. -/
theorem scheduledMovesComplete : Obligations.ScheduledMovesComplete := by
  intro s l
  exact ⟨fun c k => step_of_move, fun h => step_of_move, step_of_move⟩

/-- Settles O10: the fetch stops the first two, the decoder the third. -/
theorem stepStopsByName : Obligations.StepStopsByName := by
  intro s hs
  rw [step_of_empty hs]
  refine ⟨fun ha => ?_, fun ha hm => ?_, fun w e ha hm he => ?_⟩
  · simp [State.runHart, State.fetch, ha]
  · simp [State.runHart, State.fetch, ha, memReadBytes, hm]
  · have hd : decode (bytesOfWord w) = .error e := by
      simpa [he, Except.map] using decode_bytesOfWord w []
    simp [State.runHart, fetch_of_memReadBytes ha hm, hd]

/-! ### What a step leaves alone -/

/-- The own ticks, the access and the move of the pc of an instruction leave what `Frame` says. -/
theorem exec_frame {s t : State} {i : Instr} (h : exec i s = .next t) : ∃ w, Frame s t i.dest w := by
  obtain ⟨c, -, -, hc⟩ := exec_completes h
  exact ⟨_, hc.frame⟩

/-- Settles O47: an instruction by its frame, the other moves by what they replace. -/
theorem noStepChangesParametersOrText : Obligations.NoStepChangesParametersOrText := by
  intro s t hstep
  rcases step_cases hstep with ⟨i, u, -, ⟨l, rfl⟩, he⟩ | ⟨c, k, l, -, rfl⟩ | ⟨b, l, -, rfl⟩ | ⟨l, -, rfl⟩
  · obtain ⟨w, hf⟩ := exec_frame he
    exact ⟨hf.params, hf.memory, harts_length_congr hf.hartsBefore hf.hartsAfter⟩
  · have ht := (s.withSchedule l).tick_sameButCounts c k
    exact ⟨ht.cfg, fun a => congrArg (memRead · a) ht.mem, harts_length_congr ht.left ht.right⟩
  · obtain ⟨hcfg, hmem, -⟩ := select_rest (s.withSchedule l) b
    exact ⟨hcfg, fun a => congrArg (memRead · a) hmem, congrArg List.length (select_harts (s.withSchedule l) b)⟩
  · exact ⟨rfl, fun _ => rfl, resetAll_harts_length (s.withSchedule l)⟩

/-- The modes of all harts, where only the selected hart may have changed. -/
theorem harts_map_priv_congr {s t : State} (hl : t.left = s.left) (hr : t.right = s.right)
    (hp : t.hart.priv = s.hart.priv) : t.harts.map Hart.priv = s.harts.map Hart.priv := by
  simp [State.harts, hl, hr, hp]

/-- Settles O48: an instruction and a tick keep the mode of the selected hart and the other harts, and a selection
keeps all harts. -/
theorem onlyResetChangesMode : Obligations.OnlyResetChangesMode := by
  intro s t hstep hreset
  rcases step_cases hstep with ⟨i, u, -, ⟨l, rfl⟩, he⟩ | ⟨c, k, l, -, rfl⟩ | ⟨b, l, -, rfl⟩ | ⟨l, hs, -⟩
  · obtain ⟨w, hf⟩ := exec_frame he
    exact harts_map_priv_congr hf.hartsBefore hf.hartsAfter hf.mode
  · have ht := (s.withSchedule l).tick_sameButCounts c k
    exact harts_map_priv_congr ht.left ht.right ht.priv
  · exact congrArg (List.map Hart.priv) (select_harts (s.withSchedule l) b)
  · exact absurd ⟨l, hs⟩ hreset

/-! ### The register -/

/-- Settles O23: the read of any state masks the bit. -/
theorem readOnlyBitsReadZero : Obligations.ReadOnlyBitsReadZero := by
  intro s v n hn
  have hbit : ∀ t : State, t.inhibitValue.getLsbD n = false := by
    intro t
    have h0 : n ≠ 0 := by omega
    have hw : ¬ (n = 2 ∨ (3 ≤ n ∧ n ≤ 10)) := by omega
    simp [t.inhibitValue_getLsbD, h0, hw]
  exact ⟨hbit s, hbit _⟩

/-- A hart without the register behaves as though it were 0 (rule R14). -/
theorem State.inhibitValue_of_absent {s : State} (h : s.cfg.implemented = false) : s.inhibitValue = 0#32 := by
  simp [State.inhibitValue, h]

/-- Settles O26: the register reads 0 for gating, so no tick is lost. -/
theorem absentRegisterActsAsZero : Obligations.AbsentRegisterActsAsZero := by
  intro s c k v h
  have hinh : s.inhibited c = false := by
    simp [State.inhibited, s.inhibitValue_of_absent h, inhibitBit]
  refine ⟨s.inhibitValue_of_absent h, hinh, fun hx => ?_, by simp [State.writeInhibit, h]⟩
  rw [s.count_tick_same c k hx, hinh]
  rfl

/-- Settles O34: the bit of a counter is the bit of its number. -/
theorem eachBitGatesItsCounter : Obligations.EachBitGatesItsCounter := by
  intro s
  exact ⟨rfl, rfl, fun _ => rfl⟩

/-- Settles O28, without and with sharing. -/
theorem cycleCellIsSharedByCore : Obligations.CycleCellIsSharedByCore := by
  intro p a b
  refine ⟨fun h => ?_, fun h j k hj hk => ?_⟩
  · simp [cellNumber, h]
  · simp [cellNumber, h, List.getD, hj, hk]

/-- An instruction whose CSR is in scope and may be accessed answers `csrNext`. -/
theorem exec_eq_next {s : State} {i : Instr} {c : Csr} (hc : selectCsr s.cfg.xlen i.csrAddr = some c)
    (hm : s.mayAccess c = true) : exec i s = .next (s.csrNext c i.dest (instrOp i).1 (instrOp i).2) :=
  (exec_eq_csrInstr i s).trans (s.csrInstr_completes _ _ _ _ _ c hc hm)

/-- In `M`, `csrrw` leaves `legalize` of its source in the register (rules R63, R66). -/
theorem exec_csrrw_inhibitValue {s : State} (rd rs1 : Fin 32) (hi : s.cfg.implemented = true) (hp : s.hart.priv = .M) :
    ∃ t, exec (.csrrw rd 0x320 rs1) s = .next t ∧ t.inhibitValue = legalize (s.readX rs1) :=
  ⟨_, exec_eq_next (selectCsr_inhibit _) ((mayAccess_inhibit s).2 ⟨hi, hp⟩),
    (s.inhibitValue_csrNext ..).trans (s.inhibitValue_writeInhibit _ hi)⟩

/-- Settles O27: the write goes to the writer's cell and to the writer's own bits, and a hart's register is the `CY` of
its cell and its own bits. -/
theorem writeOfSharedCyIsVisible : Obligations.WriteOfSharedCyIsVisible := by
  intro s rd rs1 b himp hpriv hb hne
  obtain ⟨t, hexec, hreg⟩ := exec_csrrw_inhibitValue rd rs1 himp hpriv
  obtain ⟨w, hf⟩ := exec_frame hexec
  have hx : s.harts[b]? = some s.harts[b] := List.getElem?_eq_getElem hb
  have hy : t.harts[b]? = some s.harts[b] := (harts_getElem_congr hf.hartsBefore hf.hartsAfter hne).trans hx
  refine ⟨t, hexec, fun hc => ?_, fun hc => ?_, fun n hn => ?_⟩
  · have hown : t.cellAt s.ownCell = t.cycle := by
      rw [State.cycle, State.ownCell_congr hf.params hf.hartsBefore]
    have himp' : t.cfg.implemented = true := by rw [hf.params, himp]
    rw [registerOf_getLsbD hy, himp', hf.params, hc, hown, cy_eq t himp', hreg, legalize_getLsbD]
    simp
  · rw [registerOf_getLsbD hy, registerOf_getLsbD hx, hf.params, hf.cells _ hc]
  · rw [registerOf_getLsbD hy, registerOf_getLsbD hx, hf.params, if_neg hn, if_neg hn]

/-! ### Counters that do not exist -/

/-- A counter that does not exist reads 0 before and after, so it took no tick. -/
theorem ownTicked_of_not_exists {s t : State} {c : Counter} (hx : counterExists s.cfg c = false) (hcfg : t.cfg = s.cfg) :
    OwnTicked s t c := by
  refine ⟨0, ?_, fun _ _ => rfl, fun _ _ => rfl, fun _ _ => rfl, fun hm => ?_⟩
  · rw [s.count_of_not_exists c hx, t.count_of_not_exists c (by rw [hcfg, hx])]
    simp
  · subst hm; cases hx

/-- The CSR at the address of number `n`, 3 to 31, or at that of its upper half, is that of a counter with this number or
of none. -/
theorem selectCsr_number {l : Xlen} {a n : Nat} (h3 : 3 ≤ n) (h31 : n ≤ 31)
    (ha : a = 0xB00 + n ∨ (l = .x32 ∧ a = 0xB80 + n)) :
    ∃ c, selectCsr l a = some c ∧ c ≠ .inhibit ∧ ∀ d, c.counter? = some d → counterNumber d = n := by
  have hlt : n < 32 := by omega
  rcases Nat.lt_or_ge n 11 with h11 | h11
  · have hnum : counterNumber (.mhpmcounter ⟨n - 3, by omega⟩) = n := by simp only [counterNumber]; omega
    rcases ha with rfl | ⟨rfl, rfl⟩
    · refine ⟨.low _, by rw [selectCsr_lowRange l hlt, numberedCounter_hpm ⟨h3, h11⟩], by simp, fun d hd => ?_⟩
      cases hd; exact hnum
    · refine ⟨.high _, by rw [selectCsr_highRange hlt, numberedCounter_hpm ⟨h3, h11⟩], by simp, fun d hd => ?_⟩
      cases hd; exact hnum
  · have habs := numberedCounter_absent ⟨h11, hlt⟩
    refine ⟨.absent, ?_, by simp, fun d hd => by cases hd⟩
    rcases ha with rfl | ⟨rfl, rfl⟩
    · rw [selectCsr_lowRange l hlt, habs]
    · rw [selectCsr_highRange hlt, habs]

/-- The access check of a counter is the mode alone (rule R72). -/
theorem mayAccess_counter {s : State} {c : Csr} (hc : c ≠ .inhibit) (hp : s.hart.priv = .M) : s.mayAccess c = true := by
  cases c with
  | inhibit => exact absurd rfl hc
  | low _ | high _ | absent => simp [State.mayAccess, hp]

/-- The CSR of a counter that does not exist reads 0 (rule R25). -/
theorem accessOld_of_not_exists {s : State} {c : Csr} (hc : c ≠ .inhibit)
    (hx : ∀ d, c.counter? = some d → counterExists s.cfg d = false) : s.accessOld c = 0#64 := by
  have hcount : ∀ d, c.counter? = some d → (s.ticksBeforeRead c).count d = 0#64 := fun d hd =>
    State.count_of_not_exists _ d (by rw [(s.ticksBeforeRead_sameButCounts c).cfg, hx d hd])
  cases c with
  | inhibit => exact absurd rfl hc
  | low d | high d => simp [State.accessOld, State.readCsr, hcount d rfl]
  | absent => rfl

/-- An access that writes no counter that exists completes as one that writes none. -/
theorem Completes.of_not_exists {s t : State} {rd : Fin 32} {old : DWord} {w : Option Counter}
    (h : Completes s t rd old w) (hx : ∀ d, w = some d → counterExists s.cfg d = false) :
    Completes s t rd old none where
  dest := h.dest
  pc := h.pc
  frame := { h.frame with
    counters := fun d _ => by
      by_cases hw : w = some d
      · exact ownTicked_of_not_exists (hx d hw) h.frame.params
      · exact h.frame.counters d hw }

/-- Settles O31: the address is in scope for a counter that does not exist, which reads 0 and ignores the write. -/
theorem absentCounterReadsZero : Obligations.AbsentCounterReadsZero := by
  intro s i n h3 h31 habs haddr hpriv
  obtain ⟨c, hsel, hne, hnum⟩ := selectCsr_number h3 h31 haddr
  have hx : ∀ d, c.counter? = some d → counterExists s.cfg d = false := fun d hd => habs d (hnum d hd)
  have hw : ∀ d, writtenCounter c (instrOp i).1 (instrOp i).2 = some d → counterExists s.cfg d = false := by
    intro d hd
    unfold writtenCounter at hd
    split at hd
    · exact hx d hd
    · cases hd
  have hcompl := s.csrNext_completes c i.dest (instrOp i).1 (instrOp i).2 fun d hd => selectCsr_high (hd ▸ hsel)
  rw [accessOld_of_not_exists hne hx] at hcompl
  exact ⟨_, exec_eq_next hsel (mayAccess_counter hne hpriv), inhibit_csrNext_counter _ _ _ _ _ hne,
    hcompl.of_not_exists hw⟩

/-! ### General registers and program text -/

/-- Settles O39, from the rules for a read after a write. -/
theorem generalRegistersReadBack : Obligations.GeneralRegistersReadBack := by
  intro s r v
  refine ⟨s.readX_zero, rfl, fun hr => ?_, fun q hq => s.readX_writeX_ne v hq⟩
  rw [s.readX_writeX_same, if_neg hr]

/-- Settles O40, from the rules for a read after a write. -/
theorem programTextReadsBack : Obligations.ProgramTextReadsBack := by
  intro m a b v
  exact ⟨memRead_memWrite_same m a v, memRead_memWrite_ne m v, memWrite_wf m a v⟩

/-! ### Reset -/

/-- Settles O41: hart 0 and the others are harts at reset, and `cellsNeeded` cells hold them all. -/
theorem resetIsWellFormed : Obligations.ResetIsWellFormed := by
  intro p others hp
  refine ⟨hp, fun x hx => ?_, fun n hn => ?_, cells_absent _ _ _, rfl⟩
  · rcases List.mem_cons.1 hx with rfl | hx
    · exact hart_atReset_wf _ _ _ hp
    · obtain ⟨j, rfl⟩ := mem_hartsAtReset hx
      exact hart_atReset_wf _ _ _ hp
  · have hlen : (State.resetOf p others).cycles.length = cellsNeeded p (others + 1) := cellsAtReset_length ..
    have hharts : (State.resetOf p others).harts.length = others + 1 := by simp [State.harts, State.resetOf]
    rw [hlen]
    exact cellsNeeded_lt p (hharts ▸ hn)

/-- Settles O42: the fields by evaluation, the register by its mask, the invariant by O41. -/
theorem resetLeavesMachineMode : Obligations.ResetLeavesMachineMode := by
  refine ⟨rfl, rfl, rfl, rfl, rfl, ?_, rfl, resetIsWellFormed _ _ rfl⟩
  have hmask : writableMask &&& 0xFFFFF802#32 = 0#32 := rfl
  rw [← State.inhibitValue_and_writableMask, BitVec.and_assoc, hmask, BitVec.and_zero]

/-- Hart `n` after the reset event, looked at by selecting it. -/
theorem resetAll_select_hart {s : State} {n : Nat} (h : n < s.harts.length) :
    (s.resetAll.select n).hart = Hart.atReset s.cfg s.draws n :=
  select_hart (resetAll_hart h)

@[simp] theorem resetAll_select_cfg (s : State) (n : Nat) : (s.resetAll.select n).cfg = s.cfg :=
  (select_rest s.resetAll n).1

/-- The cell of hart `n` after the reset event. -/
theorem resetAll_select_cycle {s : State} {n : Nat} (h : n < s.harts.length)
    (hc : cellNumber s.cfg n < s.cycles.length) :
    (s.resetAll.select n).cycle = CycleCell.atReset s.cfg s.draws (cellNumber s.cfg n) :=
  (select_cycle (by simpa using h)).trans (resetAll_cellAt hc)

/-- The register of hart `n` after the reset event: its own draw under the mask, and the `CY` its cell drew. -/
theorem resetAll_registerOf {s : State} {n : Nat} (h : n < s.harts.length)
    (hc : cellNumber s.cfg n < s.cycles.length) (hi : s.cfg.implemented = true) :
    s.resetAll.registerOf n = (Config.resetInhibit s.draws n &&& ownMask) |||
      (if Config.resetCy s.draws (cellNumber s.cfg n) then 1#32 else 0#32) := by
  simp [State.registerOf, State.inhibitValue, resetAll_select_hart h, resetAll_select_cycle h hc, Hart.atReset,
    CycleCell.atReset, hi, BitVec.and_assoc]

/-- A general register of hart `n` after the reset event: 0 for `x0`, else the draw cut to XLEN bits. -/
theorem resetAll_select_readX {s : State} {n : Nat} (h : n < s.harts.length) (r : Fin 32) :
    (s.resetAll.select n).readX r = if r = 0 then 0#64 else truncX s.cfg.xlen (Config.resetX s.draws n r) := by
  unfold State.readX
  split
  · rfl
  · simp [resetAll_select_hart h, Hart.atReset, *]

/-- An `mhpmcounter` of hart `n` after the reset event: the draw, 0 where it is not implemented. -/
theorem resetAll_select_hpm {s : State} {n : Nat} (h : n < s.harts.length) (i : Fin 8) :
    (s.resetAll.select n).count (.mhpmcounter i) =
      if s.cfg.hpmImplemented[i] then Config.resetHpm s.draws n i else 0#64 := by
  rw [State.count, resetAll_select_cfg, resetAll_select_hart h]
  split
  · rename_i hi
    exact (Vector.getElem_ofFn _).trans (if_pos hi)
  · rfl

/-- Settles O43: hart by hart, what the reset event left in the hart and in its cell. -/
theorem resetEventRedrawsEveryHart : Obligations.ResetEventRedrawsEveryHart := by
  intro s l hs
  refine ⟨(s.withSchedule l).resetAll, step_of_move hs, rfl, rfl, rfl, rfl, resetAll_harts_length (s.withSchedule l),
    hartsAtReset_length .., fun n hn => ?_⟩
  have hn : n < (s.withSchedule l).harts.length := hn
  refine ⟨by rw [resetAll_select_hart hn]; rfl, ?_, resetAll_select_readX hn, ?_, resetAll_select_hpm hn, fun hi => ?_,
    fun hc => ⟨?_, resetAll_registerOf hn hc⟩⟩
  · rw [State.pcValue, resetAll_select_hart hn, resetAll_select_cfg]
    exact truncX_truncX ..
  · rw [State.count, resetAll_select_hart hn]; rfl
  · exact State.inhibitValue_of_absent (by simpa using hi)
  · rw [State.count, resetAll_select_cycle hn hc]; rfl

end Sys2Proof.Machine

/-! PROOFS. Family `20_memory.md`: the register is read without a side effect and is idempotent to write. -/

namespace Sys2Proof.Machine

/-- In `M`, any form on `0x320` completes and delivers the value of the register before it (rules R60, R65). -/
theorem exec_inhibit_completes {s : State} {i : Instr} (ha : i.csrAddr = 0x320) (hi : s.cfg.implemented = true)
    (hp : s.hart.priv = .M) : ∃ t, exec i s = .next t ∧ Completes s t i.dest (s.inhibitValue.setWidth 64) none := by
  have hsel : selectCsr s.cfg.xlen i.csrAddr = some .inhibit := by rw [ha, selectCsr_inhibit]
  refine ⟨_, exec_eq_next hsel ((mayAccess_inhibit s).2 ⟨hi, hp⟩), ?_⟩
  rw [← writtenCounter_inhibit (instrOp i).1 (instrOp i).2]
  exact s.csrNext_completes .inhibit _ _ _ (by simp)

/-- `csrrs` with source `x0` suppresses its write (rule R67). -/
theorem not_writesInhibit_csrrs_zero (s : State) (rd : Fin 32) (a : Nat) : ¬ WritesInhibit (.csrrs rd a 0) s := by
  rintro ⟨-, old, hne⟩
  exact hne rfl

/-- In `M`, a read of the register delivers it and leaves it as it was (rules R45, R67). -/
theorem exec_read_inhibit {s : State} (rd : Fin 32) (hi : s.cfg.implemented = true) (hp : s.hart.priv = .M) :
    ∃ t, exec (.csrrs rd 0x320 0) s = .next t ∧ t.inhibitValue = s.inhibitValue ∧
      Completes s t rd (s.inhibitValue.setWidth 64) none := by
  obtain ⟨t, hexec, hcompl⟩ := exec_inhibit_completes (i := .csrrs rd 0x320 0) rfl hi hp
  exact ⟨t, hexec, exec_inhibitValue hexec (not_writesInhibit_csrrs_zero s rd 0x320), hcompl⟩

/-- An instruction with destination `x0` leaves every general register (rule R26). -/
theorem Frame.readX_of_zero {s t : State} {w : Option Counter} (h : Frame s t 0 w) (r : Fin 32) :
    t.readX r = s.readX r := by
  by_cases hr : r = 0
  · rw [hr, State.readX_zero, State.readX_zero]
  · exact h.regs r hr

/-- Settles O21: the first read leaves the register, the parameters and the mode, so the second is the same read. -/
theorem readingTwiceGivesSameValue : Obligations.ReadingTwiceGivesSameValue := by
  intro s rd rd' himp hpriv hrd'
  obtain ⟨t, hst, hregT, hcT⟩ := exec_read_inhibit rd himp hpriv
  obtain ⟨u, htu, hregU, hcU⟩ :=
    exec_read_inhibit (s := t) rd' (by rw [hcT.frame.params, himp]) (by rw [hcT.frame.mode, hpriv])
  refine ⟨t, u, hst, htu, fun hrd => ?_, ?_, hregU.trans hregT⟩
  · rw [hcT.dest, if_neg hrd]
  · rw [hcU.dest, if_neg hrd', hregT]

/-- Settles O22: the first write leaves the source register, so the second writes the same value. -/
theorem writingTwiceIsWritingOnce : Obligations.WritingTwiceIsWritingOnce := by
  intro s rs1 himp hpriv
  obtain ⟨t, hst, hregT⟩ := exec_csrrw_inhibitValue 0 rs1 himp hpriv
  obtain ⟨_, hfT⟩ := exec_frame hst
  obtain ⟨u, htu, hregU⟩ :=
    exec_csrrw_inhibitValue (s := t) 0 rs1 (by rw [hfT.params, himp]) (by rw [hfT.mode, hpriv])
  obtain ⟨_, hfU⟩ := exec_frame htu
  refine ⟨t, u, hst, htu, ?_, (hfU.readX_of_zero rs1).trans (hfT.readX_of_zero rs1)⟩
  rw [hregU, hregT, hfT.readX_of_zero]

end Sys2Proof.Machine

/-! PROOFS. Family `30_encoding.md`: decoding and encoding undo each other, the decoder follows the opcode table and
rejects every other word by name, and what an immediate can reach in the register. -/

namespace Sys2Proof

/-! ### Decoding and encoding undo each other -/

theorem csrFits_csrField (w : Word) : csrFits (csrField w) = true :=
  decide_eq_true (w.extractLsb' 20 12).isLt

theorem uimmFits_uimmField (w : Word) : uimmFits (uimmField w) = true :=
  decide_eq_true (w.extractLsb' 15 5).isLt

/-- A decoded instruction is well-formed and encodes to its word: its operands are the word's fields, and `funct3`
picked its row. -/
theorem encode_of_decodeWord {w : Word} {i : Instr} (h : decodeWord w = .ok i) : encode i = w ∧ i.wf = true := by
  have hop := decodeWord_ok_opcode h
  have hw := encodeFields_fields w hop
  have hreg := csrFits_csrField w
  have himm := Bool.and_eq_true_iff.2 ⟨hreg, uimmFits_uimmField w⟩
  rw [decodeWord_eq w hop] at h
  rcases funct3_cases (funct3Field w) with hf | hf | hf | hf | hf | hf | hf | hf <;> rw [hf] at h hw <;> cases h
  -- `funct3` 000 and 100 decode to nothing; the rows with a register, then those with an immediate, are left.
  exacts [⟨hw, hreg⟩, ⟨hw, hreg⟩, ⟨hw, hreg⟩, ⟨hw, himm⟩, ⟨hw, himm⟩, ⟨hw, himm⟩]

/-- The words that decode to an instruction are those it encodes to, when it is well-formed. -/
theorem decodeWord_eq_ok_iff (w : Word) (i : Instr) : decodeWord w = .ok i ↔ encode i = w ∧ i.wf = true := by
  refine ⟨encode_of_decodeWord, ?_⟩
  rintro ⟨rfl, hi⟩
  exact decodeWord_encode hi

/-! ### The masks of the opcode table (rule R53) -/

/-- Appending is injective, so that a word is taken apart field by field. -/
theorem append_eq_append_iff {m n : Nat} {x x' : BitVec m} {y y' : BitVec n} :
    x ++ y = x' ++ y' ↔ x = x' ∧ y = y' := by
  refine ⟨fun h => ⟨?_, ?_⟩, fun ⟨hx, hy⟩ => by rw [hx, hy]⟩
  · rw [← BitVec.extractLsb'_append_eq_left (a := x) (b := y), h, BitVec.extractLsb'_append_eq_left]
  · rw [← BitVec.extractLsb'_append_eq_right (a := x) (b := y), h, BitVec.extractLsb'_append_eq_right]

/-- The masks of rule R53: all of `funct3` and the opcode, nothing of `rd` and `rs1`, and `m` of the csr field. -/
def rowMask (m : BitVec 12) : Word := m ++ 0#5 ++ BitVec.allOnes 3 ++ 0#5 ++ BitVec.allOnes 7

/-- A word under such a mask is a match exactly when the fields the mask looks at are those of the match. -/
theorem and_rowMask_eq_iff (w : Word) (m c : BitVec 12) (f : BitVec 3) :
    w &&& rowMask m = c ++ 0#5 ++ f ++ 0#5 ++ 0b1110011#7 ↔
      w.extractLsb' 20 12 &&& m = c ∧ funct3Field w = f ∧ opcodeField w = 0b1110011#7 := by
  have hand : w &&& rowMask m =
      (w.extractLsb' 20 12 &&& m) ++ 0#5 ++ funct3Field w ++ 0#5 ++ opcodeField w := by
    refine BitVec.eq_of_getLsbD_eq fun n hn => ?_
    simp only [rowMask, funct3Field, opcodeField, BitVec.getLsbD_and, BitVec.getLsbD_append, BitVec.getLsbD_extractLsb']
    interval_cases n <;> simp
  rw [hand]
  constructor
  · intro h
    obtain ⟨h, hop⟩ := append_eq_append_iff.1 h
    obtain ⟨h, -⟩ := append_eq_append_iff.1 h
    obtain ⟨h, hf⟩ := append_eq_append_iff.1 h
    exact ⟨(append_eq_append_iff.1 h).1, hf, hop⟩
  · rintro ⟨rfl, rfl, hop⟩
    rw [hop]

/-- A word decodes to the instruction made of its own `rd` and `rs1` fields, csr `a` and the row of `f` exactly when it
holds `a`, `f` and the opcode. -/
theorem decodeWord_row_iff {w : Word} {i : Instr} {a : Nat} {f : BitVec 3} (hi : i.wf = true) (ha : csrFits a = true)
    (he : encode i = encodeFields a (uimmField w) f (rdField w)) :
    decodeWord w = .ok i ↔ csrField w = a ∧ funct3Field w = f ∧ opcodeField w = 0b1110011#7 := by
  rw [decodeWord_eq_ok_iff, he]
  constructor
  · rintro ⟨hw, -⟩
    refine ⟨?_, ?_, ?_⟩
    · rw [← hw, csrField_encodeFields (of_decide_eq_true ha)]
    · rw [← hw, funct3Field_encodeFields]
    · rw [← hw, opcodeField_encodeFields]
  · rintro ⟨rfl, rfl, hop⟩
    exact ⟨encodeFields_fields w hop, hi⟩

/-- `w & mask = match` for a row: the decoder gives the row's instruction with the word's own fields. -/
theorem matches_row_iff {w v : Word} {i : Instr} {f : BitVec 3} (hv : v = 0#12 ++ 0#5 ++ f ++ 0#5 ++ 0b1110011#7)
    (hi : i.wf = true) (he : encode i = encodeFields (csrField w) (uimmField w) f (rdField w)) :
    w &&& 0x0000707F#32 = v ↔ decodeWord w = .ok i := by
  have hmask : 0x0000707F#32 = rowMask 0#12 := rfl
  rw [decodeWord_row_iff hi (csrFits_csrField w) he, hv, hmask, and_rowMask_eq_iff]
  simp

/-- The same for a row on the register, with the mask that looks at the csr field too. -/
theorem matches_inhibit_row_iff {w v : Word} {i : Instr} {f : BitVec 3}
    (hv : v = 0x320#12 ++ 0#5 ++ f ++ 0#5 ++ 0b1110011#7) (hi : i.wf = true)
    (he : encode i = encodeFields 0x320 (uimmField w) f (rdField w)) :
    w &&& 0xFFF0707F#32 = v ↔ decodeWord w = .ok i := by
  have hmask : 0xFFF0707F#32 = rowMask (BitVec.allOnes 12) := rfl
  have hcsr : w.extractLsb' 20 12 = 0x320#12 ↔ csrField w = 0x320 := BitVec.toNat_inj.symm
  rw [decodeWord_row_iff hi rfl he, hv, hmask, and_rowMask_eq_iff, BitVec.and_allOnes, hcsr]

/-! ### The obligations -/

/-- Settles O2: the bytes of a word make the word again, and the word of `i` decodes to `i`. -/
theorem decodeOfEncodeGivesInstrBack : Obligations.DecodeOfEncodeGivesInstrBack := by
  intro i rest hi
  rw [decode_bytesOfWord, decodeWord_encode hi]
  rfl

/-- Settles O3: nothing of the word is outside the fields that the instruction holds. -/
theorem encodeOfDecodeGivesWordBack : Obligations.EncodeOfDecodeGivesWordBack :=
  fun _ _ => encode_of_decodeWord

/-- Settles O4: each row by its `funct3`. -/
theorem decoderFollowsOpcodeTable : Obligations.DecoderFollowsOpcodeTable := by
  intro w
  have hreg := csrFits_csrField w
  have himm := Bool.and_eq_true_iff.2 ⟨hreg, uimmFits_uimmField w⟩
  have himm' := Bool.and_eq_true_iff.2 ⟨show csrFits 0x320 = true from rfl, uimmFits_uimmField w⟩
  exact ⟨matches_row_iff (f := 0b001#3) rfl hreg rfl, matches_row_iff (f := 0b010#3) rfl hreg rfl,
    matches_row_iff (f := 0b011#3) rfl hreg rfl, matches_row_iff (f := 0b101#3) rfl himm rfl,
    matches_row_iff (f := 0b110#3) rfl himm rfl, matches_row_iff (f := 0b111#3) rfl himm rfl,
    matches_inhibit_row_iff (f := 0b001#3) rfl rfl rfl, matches_inhibit_row_iff (f := 0b010#3) rfl rfl rfl,
    matches_inhibit_row_iff (f := 0b011#3) rfl rfl rfl, matches_inhibit_row_iff (f := 0b101#3) rfl himm' rfl,
    matches_inhibit_row_iff (f := 0b110#3) rfl himm' rfl, matches_inhibit_row_iff (f := 0b111#3) rfl himm' rfl⟩

/-- Settles O5: the length bits and the opcode reject first, and the eight values of `funct3` decide the rest. -/
theorem otherWordsRejectedByName : Obligations.OtherWordsRejectedByName := by
  intro w
  refine ⟨fun h => ?_, fun h hop => ?_, fun hop hf => ?_, fun hop hf => ?_, fun hop h0 h4 => ?_⟩
  · rw [decodeWord, if_pos h]
  · rw [decodeWord, if_neg (not_not_intro h), opcodeField, if_pos hop]
  · rw [decodeWord_eq w hop, funct3Field, hf]
    rfl
  · rw [decodeWord_eq w hop, funct3Field, hf]
    rfl
  · rw [decodeWord_eq w hop]
    rcases funct3_cases (funct3Field w) with hf | hf | hf | hf | hf | hf | hf | hf <;> rw [hf]
    exacts [absurd hf h0, ⟨_, rfl⟩, ⟨_, rfl⟩, ⟨_, rfl⟩, absurd hf h4, ⟨_, rfl⟩, ⟨_, rfl⟩, ⟨_, rfl⟩]

/-- Settles O1, by running the decoder. -/
theorem exampleWordsDecode : Obligations.ExampleWordsDecode := by
  unfold Obligations.ExampleWordsDecode
  decide

end Sys2Proof

namespace Sys2Proof.Machine

/-! ### What an immediate reaches -/

/-- In `M`, what a form on `0x320` leaves in the register: `legalize` of its operation on the old value, where it writes
(rules R63, R66 to R71). -/
theorem exec_inhibit_value {s : State} {i : Instr} (ha : i.csrAddr = 0x320) (hi : s.cfg.implemented = true)
    (hp : s.hart.priv = .M) : ∃ t, exec i s = .next t ∧ t.inhibitValue =
      if (instrOp i).1.writes (instrOp i).2 then
        legalize ((instrOp i).1.apply s.cfg.xlen (s.inhibitValue.setWidth 64) ((instrOp i).2.value s))
      else s.inhibitValue := by
  have hsel : selectCsr s.cfg.xlen i.csrAddr = some .inhibit := by rw [ha, selectCsr_inhibit]
  refine ⟨_, exec_eq_next hsel ((mayAccess_inhibit s).2 ⟨hi, hp⟩), ?_⟩
  rw [State.inhibitValue_csrNext, State.accessed]
  split
  · exact s.inhibitValue_writeInhibit _ hi
  · rfl

/-- A zero-extended immediate of 5 bits holds a writable bit nowhere but at 0, 2, 3 and 4 (rule R52). -/
theorem legalize_imm_getLsbD (l : Xlen) {u n : Nat} (hu : u < 32) (h0 : n ≠ 0) (h2 : n ≠ 2) (h3 : n ≠ 3) (h4 : n ≠ 4) :
    (legalize (truncX l (BitVec.ofNat 64 u))).getLsbD n = false := by
  rw [legalize, setWidth_imm, BitVec.getLsbD_and, writableMask_getLsbD, BitVec.getLsbD_ofNat]
  rcases Nat.lt_or_ge n 5 with hn | hn
  · have h1 : n = 1 := by omega
    simp [h1]
  · have hbit : u.testBit n = false :=
      Nat.testBit_lt_two_pow (hu.trans_le (Nat.pow_le_pow_right (n := 2) (by decide) hn))
    simp [hbit]

/-- A set or clear whose source has no 1 at a writable bit leaves that bit of the register (rules R67, R68). -/
theorem legalize_apply_getLsbD {op : CsrOp} (hop : op ≠ .write) (s : State) (src : DWord) {n : Nat}
    (hsrc : (legalize src).getLsbD n = false) :
    (legalize (op.apply s.cfg.xlen (s.inhibitValue.setWidth 64) src)).getLsbD n = s.inhibitValue.getLsbD n := by
  have hreg : (s.inhibitValue &&& writableMask).getLsbD n = s.inhibitValue.getLsbD n := by
    rw [s.inhibitValue_and_writableMask]
  rw [legalize_eq, BitVec.getLsbD_and] at hsrc
  rw [BitVec.getLsbD_and, writableMask] at hreg
  cases op with
  | write => exact absurd rfl hop
  | set =>
    rw [CsrOp.apply, legalize_set, BitVec.getLsbD_and, BitVec.getLsbD_or, Bool.and_or_distrib_right, hsrc, hreg,
      Bool.or_false]
  | clear =>
    rw [CsrOp.apply, legalize_clear, BitVec.getLsbD_and, BitVec.getLsbD_and, Bool.and_right_comm, hreg]
    cases hbit : s.inhibitValue.getLsbD n with
    | false => rfl
    | true =>
      have hmask : (0x000007FD#32).getLsbD n = true := by simpa [hbit] using hreg
      rw [hmask, Bool.and_true] at hsrc
      rw [BitVec.getLsbD_not, hsrc]
      simp [BitVec.lt_of_getLsbD hbit]

/-- In `M`, a set or clear of the register by an immediate of 5 bits leaves every bit but 0, 2, 3 and 4. -/
theorem exec_imm_keeps_getLsbD {s : State} {i : Instr} {op : CsrOp} {u : Nat} (hop : op ≠ .write)
    (hform : instrOp i = (op, .imm u)) (ha : i.csrAddr = 0x320) (hu : u < 32) (hi : s.cfg.implemented = true)
    (hp : s.hart.priv = .M) : ∃ t, exec i s = .next t ∧
      ∀ n, n ≠ 0 → n ≠ 2 → n ≠ 3 → n ≠ 4 → t.inhibitValue.getLsbD n = s.inhibitValue.getLsbD n := by
  obtain ⟨t, hexec, hreg⟩ := exec_inhibit_value ha hi hp
  refine ⟨t, hexec, fun n h0 h2 h3 h4 => ?_⟩
  rw [hreg, hform]
  split
  · exact legalize_apply_getLsbD hop s _ (legalize_imm_getLsbD s.cfg.xlen hu h0 h2 h3 h4)
  · rfl

/-- Settles O19: the two forms that set and clear keep the bits, and `csrrwi` leaves the immediate alone. -/
theorem immediateReachesFourFields : Obligations.ImmediateReachesFourFields := by
  intro s rd u hu himp hpriv
  refine ⟨exec_imm_keeps_getLsbD (op := .set) (by decide) rfl rfl hu himp hpriv,
    exec_imm_keeps_getLsbD (op := .clear) (by decide) rfl rfl hu himp hpriv, ?_⟩
  obtain ⟨t, hexec, hreg⟩ := exec_inhibit_value (i := .csrrwi rd 0x320 u) rfl himp hpriv
  refine ⟨t, hexec, fun n hn => ?_⟩
  rw [hreg]
  exact legalize_imm_getLsbD s.cfg.xlen hu (by omega) (by omega) (by omega) (by omega)

end Sys2Proof.Machine

/-! PROOFS. Family `40_csr_access.md`: the six instructions on the register, on the two addresses of a counter and on
every other address, and the laws of `legalize`. -/

namespace Sys2Proof.Machine

/-! ### The six instructions on the register -/

/-- The register after an access to it: `legalize` of the operation on the old value, where the access writes (rules
R63, R66 to R71). -/
def State.inhibitAfter (s : State) (op : CsrOp) (src : Source) : Word :=
  if op.writes src then legalize (op.apply s.cfg.xlen (s.inhibitValue.setWidth 64) (src.value s)) else s.inhibitValue

theorem State.inhibitAfter_write (s : State) (src : Source) : s.inhibitAfter .write src = legalize (src.value s) := rfl

theorem State.inhibitAfter_set (s : State) (src : Source) : s.inhibitAfter .set src =
    if src.isZero then s.inhibitValue else (s.inhibitValue ||| (src.value s).setWidth 32) &&& 0x000007FD#32 := by
  rw [State.inhibitAfter, CsrOp.apply, legalize_set]
  cases hz : src.isZero <;> simp [CsrOp.writes, hz]

theorem State.inhibitAfter_clear (s : State) (src : Source) : s.inhibitAfter .clear src =
    if src.isZero then s.inhibitValue else (s.inhibitValue &&& ~~~((src.value s).setWidth 32)) &&& 0x000007FD#32 := by
  rw [State.inhibitAfter, CsrOp.apply, legalize_clear]
  cases hz : src.isZero <;> simp [CsrOp.writes, hz]

@[simp] theorem Source.isZero_reg (r : Fin 32) : (Source.reg r).isZero = true ↔ r = 0 := beq_iff_eq

@[simp] theorem Source.isZero_imm (u : Nat) : (Source.imm u).isZero = true ↔ u = 0 := beq_iff_eq

@[simp] theorem Source.value_reg (s : State) (r : Fin 32) : (Source.reg r).value s = s.readX r := rfl

@[simp] theorem Source.setWidth_value_imm (s : State) (u : Nat) :
    ((Source.imm u).value s).setWidth 32 = BitVec.ofNat 32 u :=
  setWidth_imm ..

/-- Every form on `0x320` (rules R60 to R65): in `M`, with the register there, it completes and leaves `v` in the
register, and otherwise it raises the exception. -/
theorem exec_on_inhibit {s : State} {i : Instr} {v : Word} (ha : i.csrAddr = 0x320)
    (hv : s.inhibitAfter (instrOp i).1 (instrOp i).2 = v) :
    (s.cfg.implemented = true → s.hart.priv = .M → ∃ t, exec i s = .next t ∧ t.inhibitValue = v ∧
      Completes s t i.dest (s.inhibitValue.setWidth 64) none) ∧
    (¬ (s.cfg.implemented = true ∧ s.hart.priv = .M) → RaisesIllegal i s) := by
  refine ⟨fun hi hp => ?_, fun h => ?_⟩
  · obtain ⟨t, hexec, hreg⟩ := exec_inhibit_value ha hi hp
    obtain ⟨t', hexec', hcompl⟩ := exec_inhibit_completes ha hi hp
    cases hexec.symm.trans hexec'
    exact ⟨t, hexec, hreg.trans hv, hcompl⟩
  · have hsel : selectCsr s.cfg.xlen i.csrAddr = some .inhibit := by rw [ha, selectCsr_inhibit]
    exact s.raisesIllegal i .inhibit hsel (Bool.eq_false_iff.2 (mt (mayAccess_inhibit s).1 h))

/-- Settles O11: the write form leaves `legalize` of the source. -/
theorem csrrwOnMcountinhibit : Obligations.CsrrwOnMcountinhibit := by
  intro s rd rs1
  exact ⟨rfl, exec_on_inhibit rfl (s.inhibitAfter_write (.reg rs1))⟩

/-- Settles O12: the set form, suppressed on the register number. -/
theorem csrrsOnMcountinhibit : Obligations.CsrrsOnMcountinhibit := by
  intro s rd rs1
  refine ⟨rfl, exec_on_inhibit rfl ?_⟩
  simpa [instrOp] using s.inhibitAfter_set (.reg rs1)

/-- Settles O13: the clear form, suppressed on the register number. -/
theorem csrrcOnMcountinhibit : Obligations.CsrrcOnMcountinhibit := by
  intro s rd rs1
  refine ⟨rfl, exec_on_inhibit rfl ?_⟩
  simpa [instrOp] using s.inhibitAfter_clear (.reg rs1)

/-- Settles O14: the write form leaves `legalize` of the immediate, whose low 32 bits are its own. -/
theorem csrrwiOnMcountinhibit : Obligations.CsrrwiOnMcountinhibit := by
  intro s rd u
  refine ⟨rfl, exec_on_inhibit rfl ?_⟩
  simpa [instrOp, legalize_eq] using s.inhibitAfter_write (.imm u)

/-- Settles O15: the set form, suppressed on the immediate 0. -/
theorem csrrsiOnMcountinhibit : Obligations.CsrrsiOnMcountinhibit := by
  intro s rd u
  refine ⟨rfl, exec_on_inhibit rfl ?_⟩
  simpa [instrOp] using s.inhibitAfter_set (.imm u)

/-- Settles O16: the clear form, suppressed on the immediate 0. -/
theorem csrrciOnMcountinhibit : Obligations.CsrrciOnMcountinhibit := by
  intro s rd u
  refine ⟨rfl, exec_on_inhibit rfl ?_⟩
  simpa [instrOp] using s.inhibitAfter_clear (.imm u)

/-! ### Which accesses complete and which are refused -/

/-- In `M`, with the register there, the access check passes for every CSR (rules R60, R72). -/
theorem mayAccess_of_machine {s : State} (c : Csr) (hp : s.hart.priv = .M) (hi : s.cfg.implemented = true) :
    s.mayAccess c = true := by
  by_cases hc : c = .inhibit
  · rw [hc, mayAccess_inhibit]
    exact ⟨hi, hp⟩
  · exact mayAccess_counter hc hp

/-- Settles O18: the CSR is in scope and the check passes, so the answer is `csrNext`, which takes one draw. -/
theorem accessInMachineModeCompletes : Obligations.AccessInMachineModeCompletes := by
  intro s i c hsel hp hi
  exact ⟨_, exec_eq_next hsel (mayAccess_of_machine c hp hi), s.csrNext_draws ..⟩

/-- An address is out of scope when it is not `0x320`, lies outside the low range but for its number 1, and with XLEN 32
outside the upper range but for its number 1 (rules R21, R72). -/
theorem selectCsr_eq_none {l : Xlen} {a : Nat} (h : a ≠ 0x320) (hlow : a < 0xB00 ∨ 0xB20 ≤ a ∨ a = 0xB01)
    (hhigh : l = .x32 → a < 0xB80 ∨ 0xBA0 ≤ a ∨ a = 0xB81) : selectCsr l a = none := by
  by_cases h1 : a = 0xB01
  · subst h1; rfl
  unfold selectCsr
  rw [if_neg h, if_neg (by omega)]
  by_cases hl : l = .x32
  · by_cases h81 : a = 0xB81
    · subst h81 hl; rfl
    · have := hhigh hl
      rw [if_neg (by omega)]
  · rw [if_neg fun hr => hl hr.1]

/-- Settles O32: an address out of scope is refused before the access check. -/
theorem otherCsrRefusedByName : Obligations.OtherCsrRefusedByName := by
  intro s i h hlow hhigh
  exact (exec_refused_iff i s _).2 ⟨selectCsr_eq_none h hlow hhigh, rfl⟩

/-! ### The laws of `legalize` -/

/-- `legalize`, zero-extended, is the value under the zero-extended mask. -/
theorem setWidth_legalize (v : DWord) : (legalize v).setWidth 64 = v &&& 0x7FD#64 := by
  have hmask : 0x7FD#64 = (0x000007FD#32).setWidth 64 := rfl
  refine BitVec.eq_of_getLsbD_eq fun n hn => ?_
  rw [hmask, legalize_eq, BitVec.getLsbD_and, BitVec.getLsbD_setWidth, BitVec.getLsbD_setWidth, BitVec.getLsbD_and,
    BitVec.getLsbD_setWidth]
  by_cases h : n < 32
  · simp [h, hn]
  · simp [h, BitVec.getLsbD_of_ge (0x000007FD#32) n (by omega)]

/-- A value lies within a mask exactly when it has nothing outside it. -/
theorem and_eq_self_iff_and_not {n : Nat} (v m : BitVec n) : v &&& m = v ↔ v &&& ~~~m = 0#n := by
  constructor
  · intro h
    rw [← h, BitVec.and_assoc, BitVec.and_not_self]
    exact BitVec.and_zero
  · intro h
    calc v &&& m = v &&& m ||| v &&& ~~~m := by rw [h, BitVec.or_zero]
      _ = v := by ext; simp [← Bool.and_or_distrib_left]

/-- Settles O25: `legalize` is an intersection with the mask, bit by bit. -/
theorem legalizeLaws : Obligations.LegalizeLaws := by
  intro v w
  refine ⟨legalize_eq v, ?_, ?_, ?_, ?_, ?_⟩
  · have hmask : 0x000007FD#32 &&& 0xFFFFF802#32 = 0#32 := rfl
    rw [legalize_eq, BitVec.and_assoc, hmask, BitVec.and_zero]
  · have hlow : ((legalize v).setWidth 64).setWidth 32 = legalize v := by simp
    rw [legalize_eq (BitVec.setWidth 64 _), hlow, legalize_eq, BitVec.and_assoc, BitVec.and_self]
  · refine BitVec.eq_of_getLsbD_eq fun n _ => ?_
    simp only [BitVec.getLsbD_or, legalize_getLsbD, Bool.and_or_distrib_right]
  · simp only [legalize_eq, BitVec.setWidth_and]
    ac_rfl
  · rw [setWidth_legalize, and_eq_self_iff_and_not]

/-! ### The six instructions on a counter -/

/-- Every form on an address of a counter, in `M` (rules R72, R85, R87): it delivers what the access reads, leaves the
register, and writes the counter exactly when its rule does not suppress the write. -/
theorem exec_on_counter {s : State} {i : Instr} {csr : Csr} {c : Counter}
    (hsel : selectCsr s.cfg.xlen i.csrAddr = some csr) (hc : csr.counter? = some c) (hp : s.hart.priv = .M) :
    ∃ t, exec i s = .next t ∧ t.inhibitValue = s.inhibitValue ∧
      (writesValue i s (s.accessOld csr) = none → Completes s t i.dest (s.accessOld csr) none) ∧
      ∀ v, writesValue i s (s.accessOld csr) = some v →
        Completes s t i.dest (s.accessOld csr) (some c) ∧ t.count c = (s.writeCsr csr v).count c := by
  have hne : csr ≠ .inhibit := fun h => absurd (h ▸ hc) (by simp [Csr.counter?])
  have hcompl := s.csrNext_completes csr i.dest (instrOp i).1 (instrOp i).2 fun d hd => selectCsr_high (hd ▸ hsel)
  refine ⟨_, exec_eq_next hsel (mayAccess_counter hne hp), inhibit_csrNext_counter _ _ _ _ _ hne, fun h => ?_,
    fun v h => ?_⟩
  · have hw : (instrOp i).1.writes (instrOp i).2 = false := by simpa [writesValue_eq] using h
    rwa [writtenCounter, if_neg (by simp [hw])] at hcompl
  · obtain ⟨hw, rfl⟩ : (instrOp i).1.writes (instrOp i).2 = true ∧
        s.accessNew csr (instrOp i).1 (instrOp i).2 = v := by
      simpa [writesValue_eq, State.accessNew] using h
    rw [writtenCounter, if_pos hw, hc] at hcompl
    exact ⟨hcompl, count_csrNext_written s c csr _ _ _ hc hw⟩

/-- Settles O29: with XLEN 64 the write replaces the counter, with XLEN 32 its low half. -/
theorem counterAccessAtLowAddress : Obligations.CounterAccessAtLowAddress := by
  intro s i c hx ha hp
  obtain ⟨k, hk, hz⟩ := s.count_ticksBeforeRead (.low c) c
  have hold : s.accessOld (.low c) = truncX s.cfg.xlen (s.count c + BitVec.ofNat 64 k) := by
    rw [State.accessOld, State.readCsr, hk, (s.ticksBeforeRead_sameButCounts _).cfg]
  obtain ⟨t, hexec, hreg, hread, hwrite⟩ := exec_on_counter (ha ▸ selectCsr_low s.cfg.xlen c) rfl hp
  rw [hold] at hread hwrite
  refine ⟨t, k, hexec, fun h => hz (h.imp_right .inl), hreg, ?_⟩
  split
  · exact hread ‹_›
  · rename_i v hv
    obtain ⟨hcompl, hcount⟩ := hwrite v hv
    rw [State.writeCsr, State.count_setCount_same _ _ _ hx] at hcount
    refine ⟨hcompl, fun hl => ?_, fun hl => ?_⟩ <;> rw [hcount, hl]
    · rfl
    · exact setLow_x32 ..

/-- Settles O30: the write replaces the upper half. -/
theorem counterAccessAtHighAddress : Obligations.CounterAccessAtHighAddress := by
  intro s i c hl hx ha hp
  obtain ⟨k, hk, hz⟩ := s.count_ticksBeforeRead (.high c) c
  have hold : s.accessOld (.high c) = (s.count c + BitVec.ofNat 64 k) >>> 32 := by
    rw [State.accessOld, State.readCsr, hk]
  have hsel : selectCsr s.cfg.xlen i.csrAddr = some (.high c) := by rw [hl, ha, selectCsr_x32_high]
  obtain ⟨t, hexec, hreg, hread, hwrite⟩ := exec_on_counter hsel rfl hp
  rw [hold] at hread hwrite
  refine ⟨t, k, hexec, fun h => hz (h.imp_right .inl), hreg, ?_⟩
  split
  · exact hread ‹_›
  · rename_i v hv
    obtain ⟨hcompl, hcount⟩ := hwrite v hv
    rw [State.writeCsr, State.count_setCount_same _ _ _ hx] at hcount
    rw [hcount]
    exact ⟨hcompl, setHigh_x32 ..⟩

end Sys2Proof.Machine

/-! PROOFS. Family `41_counter_increment.md`: what a tick does and what it ignores, and what becomes of a counter in an
instruction that does not write it. -/

namespace Sys2Proof.Machine

/-! ### Ticks -/

/-- An inhibited tick is lost (rule R81). -/
theorem State.tick_of_inhibited {s : State} {c : Counter} (k : Nat) (h : s.inhibited c = true) : s.tick c k = s :=
  if_pos h

/-- Settles O33: the gated increment, and that a tick touches one count alone. -/
theorem tickIsGated : Obligations.TickIsGated := by
  intro s c k hx
  have hsame := s.tick_sameButCounts c k
  refine ⟨fun hclear => ?_, State.tick_of_inhibited k, fun d => s.count_tick_ne k, hsame.inhibitValue,
    State.readX_congr hsame.cfg hsame.x, hsame.pc, hsame.priv, hsame.cfg, hsame.left, hsame.right, hsame.mem, hsame.cells⟩
  rw [s.count_tick_same c k hx, hclear]
  simp [BitVec.toNat_add]

/-- What a tick leaves in its counter is decided by the parameters, the count and the inhibit bit. -/
theorem State.count_tick_congr {s t : State} {c : Counter} (k : Nat) (hcfg : t.cfg = s.cfg)
    (hcount : t.count c = s.count c) (hinh : t.inhibited c = s.inhibited c) :
    (t.tick c k).count c = (s.tick c k).count c := by
  by_cases hx : counterExists s.cfg c = true
  · rw [s.count_tick_same c k hx, t.count_tick_same c k (hcfg ▸ hx), hcount, hinh]
  · have hx : counterExists s.cfg c = false := by simpa using hx
    rw [State.count_of_not_exists _ c (by rw [(t.tick_sameButCounts c k).cfg, hcfg, hx]),
      State.count_of_not_exists _ c (by rw [(s.tick_sameButCounts c k).cfg, hx])]

/-- Settles O35: the mode is none of what decides a tick. -/
theorem gatingIgnoresMode : Obligations.GatingIgnoresMode := by
  intro s m c k
  have hcount : (s.withHart { s.hart with priv := m }).count c = s.count c := by cases c <;> rfl
  exact ⟨State.count_tick_congr k rfl hcount rfl, (State.tick_sameButCounts _ c k).priv, rfl, rfl⟩

/-! ### Counters that an instruction does not write -/

/-- A counter that a completed instruction does not write takes the instruction's own ticks (rules R80, R86, R87). -/
theorem exec_ownTicked {s t : State} {i : Instr} {c : Counter} (h : exec i s = .next t) (hw : ¬ WritesCounter i s c) :
    OwnTicked s t c := by
  obtain ⟨csr, hsel, -, hcompl⟩ := exec_completes h
  exact hcompl.frame.counters c (writtenCounter_of_not hsel hw)

/-- Settles O49: the own ticks that see a set bit advance the counter by 0. -/
theorem inhibitedCounterStandsStill : Obligations.InhibitedCounterStandsStill := by
  intro s t i c hexec hw
  obtain ⟨k, hcount, hboth, hpre, hpost, -⟩ := exec_ownTicked hexec hw
  have hstill : k = 0 → t.count c = s.count c := by
    rintro rfl
    simpa using hcount
  exact ⟨fun hs ht => hstill (hboth hs ht), fun hm hs => hstill (hpre hm hs), fun hm ht => hstill (hpost hm ht)⟩

/-- The one retirement tick sees one bit `b`: the common one where `IR` is the same before and after the instruction,
with `pre` that before it and with `post` that after it (rules R80, R86). -/
theorem OwnTicked.exists_retirement_bit {s t : State} (h : OwnTicked s t .minstret) :
    ∃ b : Bool, t.count .minstret = (if b then s.count .minstret else s.count .minstret + 1#64) ∧
      (t.inhibited .minstret = s.inhibited .minstret → b = s.inhibited .minstret) ∧
      (s.cfg.inhibitSample = .pre → b = s.inhibited .minstret) ∧
      (s.cfg.inhibitSample = .post → b = t.inhibited .minstret) := by
  obtain ⟨k, hcount, hset, hpreSet, hpostSet, hmin⟩ := h
  obtain ⟨hle, hclear, hpreClear, hpostClear⟩ := hmin rfl
  obtain rfl | rfl : k = 0 ∨ k = 1 := by omega
  · refine ⟨true, by simpa using hcount, fun heq => ?_, by simp_all, by simp_all⟩
    cases hs : s.inhibited .minstret <;> simp_all
  · refine ⟨false, by simpa using hcount, fun heq => ?_, by simp_all, by simp_all⟩
    cases hs : s.inhibited .minstret <;> simp_all

/-- Settles O36: the retirement tick is counted exactly when the bit it sees is clear. -/
theorem retirementIsCountedOnce : Obligations.RetirementIsCountedOnce := by
  intro s t i hexec hw
  obtain ⟨b, hcount, hsame, hpre, hpost⟩ := (exec_ownTicked hexec hw).exists_retirement_bit
  refine ⟨?_, fun hs ht => ?_, fun hs ht => ?_, fun hm => ?_, fun hm => ?_⟩
  · cases b with
    | true => exact .inl hcount
    | false => exact .inr hcount
  · rw [hcount, hsame (ht.trans hs.symm), hs]; rfl
  · rw [hcount, hsame (ht.trans hs.symm), hs]; rfl
  · rw [hcount, hpre hm]
  · rw [hcount, hpost hm]

/-- Settles O37: no tick of `minstret` falls before the read, and the read leaves `IR`, so the one retirement tick sees
the `IR` before it. -/
theorem readOfMinstretLeavesItselfOut : Obligations.ReadOfMinstretLeavesItselfOut := by
  intro s rd hp hrd
  obtain ⟨t, hexec, hreg, hread, -⟩ :=
    exec_on_counter (i := .csrrs rd 0xB02 0) (selectCsr_low s.cfg.xlen .minstret) rfl hp
  have hcompl : Completes s t rd (truncX s.cfg.xlen (s.count .minstret)) none := hread rfl
  obtain ⟨b, hcount, hsame, -⟩ := (hcompl.frame.counters .minstret (by simp)).exists_retirement_bit
  refine ⟨t, hexec, ?_, ?_⟩
  · rw [hcompl.dest, if_neg hrd]
  · rw [hcount, hsame (by rw [State.inhibited, hreg, State.inhibited])]

end Sys2Proof.Machine

/-! PROOFS. Family `60_exceptions.md`: the accesses that raise the illegal-instruction exception. -/

namespace Sys2Proof.Machine

/-- Below `M` the access check fails for every CSR (rules R60, R72, R90). -/
theorem mayAccess_below_machine {s : State} (c : Csr) (hp : s.hart.priv ≠ .M) : s.mayAccess c = false := by
  cases c <;> simp [State.mayAccess, hp]

/-- Where the register does not exist, the access check fails for it in every mode (rules R60, R90). -/
theorem mayAccess_inhibit_of_not_implemented {s : State} (hi : s.cfg.implemented = false) :
    s.mayAccess .inhibit = false := by
  simp [State.mayAccess, hi]

/-- Settles O17: the address is in scope and the access check fails, and then every form raises the exception. -/
theorem accessBelowMachineModeRaisesIllegal : Obligations.AccessBelowMachineModeRaisesIllegal := by
  intro s i
  have hbelow : ∀ c, selectCsr s.cfg.xlen i.csrAddr = some c → s.hart.priv ≠ .M → RaisesIllegal i s :=
    fun c hsel hp => s.raisesIllegal i c hsel (mayAccess_below_machine c hp)
  refine ⟨fun ha hdenied => ?_, hbelow⟩
  have hsel : selectCsr s.cfg.xlen i.csrAddr = some .inhibit := by rw [ha, selectCsr_inhibit]
  obtain hp | hi := hdenied
  · exact hbelow .inhibit hsel hp
  · exact s.raisesIllegal i .inhibit hsel (mayAccess_inhibit_of_not_implemented hi)

end Sys2Proof.Machine

/-! PROOFS. Family `70_reset_and_hazards.md`: what changes the register, what the first reads after a reset deliver, and
the write that enables every counter. -/

namespace Sys2Proof.Machine

/-! ### What changes the register -/

/-- The register of a hart is in the harts, the parameters and the cells: neither the selection nor the schedule
matters. -/
theorem registerOf_congr_harts {s t : State} (hharts : t.harts = s.harts) (hcfg : t.cfg = s.cfg)
    (hcycles : t.cycles = s.cycles) {b : Nat} (hb : b < s.harts.length) : t.registerOf b = s.registerOf b := by
  have hx : s.harts[b]? = some s.harts[b] := List.getElem?_eq_getElem hb
  refine registerOf_congr hx (by rw [hharts, hx]) hcfg rfl ?_
  rw [State.cellAt, State.cellAt, hcycles]

theorem registerOf_withSchedule {s : State} (l : List Move) {b : Nat} (hb : b < s.harts.length) :
    (s.withSchedule l).registerOf b = s.registerOf b :=
  registerOf_congr_harts (s := s) (t := s.withSchedule l) rfl rfl rfl hb

/-- Selecting another hart changes no register. -/
theorem registerOf_select {s : State} (c : Nat) {b : Nat} (hb : b < s.harts.length) :
    (s.select c).registerOf b = s.registerOf b := by
  obtain ⟨hcfg, -, hcycles⟩ := select_rest s c
  exact registerOf_congr_harts (select_harts s c) hcfg hcycles hb

/-- A hart that shares the selected hart's cell reads the same `CY` (rule R29). -/
theorem registerOf_getLsbD_zero_of_shared {s : State} {b : Nat} (hb : b < s.harts.length)
    (hcell : cellNumber s.cfg b = s.ownCell) : (s.registerOf b).getLsbD 0 = s.inhibitValue.getLsbD 0 := by
  rw [registerOf_getLsbD (List.getElem?_eq_getElem hb), State.inhibitValue_getLsbD, hcell]
  rfl

/-- Of the register of another hart an instruction can reach `CY` alone, and that in a shared cell alone (rule R29). -/
theorem Frame.otherRegister_getLsbD {s t : State} {rd : Fin 32} {w : Option Counter} (hf : Frame s t rd w) {b : Nat}
    (hb : b < s.harts.length) (hne : b ≠ s.hartNumber) {n : Nat} (h : n ≠ 0 ∨ cellNumber s.cfg b ≠ s.ownCell) :
    (t.registerOf b).getLsbD n = (s.registerOf b).getLsbD n := by
  have hx : s.harts[b]? = some s.harts[b] := List.getElem?_eq_getElem hb
  have hy : t.harts[b]? = some s.harts[b] := (harts_getElem_congr hf.hartsBefore hf.hartsAfter hne).trans hx
  rw [registerOf_getLsbD hy, registerOf_getLsbD hx, hf.params]
  rcases h with hn | hcell
  · rw [if_neg hn, if_neg hn]
  · rw [hf.cells _ hcell]

/-- An instruction that does not write the register leaves that of every hart. -/
theorem exec_registerOf_of_not_writesInhibit {s t : State} {i : Instr} (h : exec i s = .next t)
    (hw : ¬ WritesInhibit i s) {b : Nat} (hb : b < s.harts.length) : t.registerOf b = s.registerOf b := by
  obtain ⟨_, hf⟩ := exec_frame h
  have hreg := exec_inhibitValue h hw
  by_cases hown : b = s.hartNumber
  · have hnum : t.hartNumber = s.hartNumber := congrArg List.length hf.hartsBefore
    rw [hown, registerOf_self, ← hnum, registerOf_self, hreg]
  · refine BitVec.eq_of_getLsbD_eq fun n _ => ?_
    by_cases hshared : n = 0 ∧ cellNumber s.cfg b = s.ownCell
    · obtain ⟨rfl, hcell⟩ := hshared
      have hb' : b < t.harts.length := by rwa [harts_length_congr hf.hartsBefore hf.hartsAfter]
      have hcell' : cellNumber t.cfg b = t.ownCell := by
        rw [hf.params, hcell, State.ownCell_congr hf.params hf.hartsBefore]
      rw [registerOf_getLsbD_zero_of_shared hb hcell, registerOf_getLsbD_zero_of_shared hb' hcell', hreg]
    · exact hf.otherRegister_getLsbD hb hown (not_and_or.1 hshared)

/-- If an instruction changes the register of a hart, it writes the register, and if the hart is another one, it changes
`CY` in a shared cell (rules R29, R46). -/
theorem exec_registerOf_ne {s t : State} {i : Instr} (h : exec i s = .next t) {b : Nat} (hb : b < s.harts.length)
    (hchanged : t.registerOf b ≠ s.registerOf b) :
    WritesInhibit i s ∧ (b ≠ s.hartNumber → cellNumber s.cfg b = s.ownCell ∧
      ∀ n, n ≠ 0 → (t.registerOf b).getLsbD n = (s.registerOf b).getLsbD n) := by
  obtain ⟨_, hf⟩ := exec_frame h
  refine ⟨by_contra fun hw => hchanged (exec_registerOf_of_not_writesInhibit h hw hb), fun hother => ⟨?_, fun n hn => ?_⟩⟩
  · by_contra hcell
    exact hchanged (BitVec.eq_of_getLsbD_eq fun n _ => hf.otherRegister_getLsbD hb hother (.inr hcell))
  · exact hf.otherRegister_getLsbD hb hother (.inl hn)

/-- Settles O46: of the moves other than a reset, a tick and a selection change no register, and an instruction changes
one only where it writes. -/
theorem onlyWritesAndResetChangeTheRegister : Obligations.OnlyWritesAndResetChangeTheRegister := by
  intro s t h hstep hb hchanged
  have hsame (l : List Move) := registerOf_withSchedule l hb
  rcases step_cases hstep with ⟨i, u, hruns, ⟨l, rfl⟩, he⟩ | ⟨c, k, l, -, rfl⟩ | ⟨c, l, -, rfl⟩ | ⟨l, hs, -⟩
  · rw [← hsame l] at hchanged ⊢
    exact .inr ⟨i, hruns, exec_registerOf_ne he hb hchanged⟩
  · have htick := registerOf_of_counts ((s.withSchedule l).tick_sameButCounts c k) hb
    exact absurd (htick.trans (hsame l)) hchanged
  · exact absurd ((registerOf_select (s := s.withSchedule l) c hb).trans (hsame l)) hchanged
  · exact .inl ⟨l, hs⟩

/-! ### Reads after a reset -/

/-- The selected hart's register after the reset event: the draws, cut to the writable bits (rules R22, R101). -/
theorem resetAll_inhibitValue {s : State} (hc : s.ownCell < s.cycles.length) (hi : s.cfg.implemented = true) :
    s.resetAll.inhibitValue = (Config.resetInhibit s.draws s.hartNumber &&& ownMask) |||
      (if Config.resetCy s.draws s.ownCell then 1#32 else 0#32) := by
  have hlt : s.hartNumber < s.harts.length := (List.getElem?_eq_some_iff.1 (harts_getElem?_hart s)).1
  have hnum : s.resetAll.hartNumber = s.hartNumber := hartsAtReset_length ..
  rw [← registerOf_self, hnum, resetAll_registerOf hlt hc hi]
  rfl

/-- The register, zero-extended, is within `WRITABLE_MASK` (rule R10). -/
theorem State.setWidth_inhibitValue_and (s : State) : s.inhibitValue.setWidth 64 &&& 0xFFFFFFFFFFFFF802#64 = 0#64 := by
  have hlegal : legalize (s.inhibitValue.setWidth 64) = s.inhibitValue := by
    simpa [legalize] using s.inhibitValue_and_writableMask
  refine (and_eq_self_iff_and_not _ 0x7FD#64).1 ?_
  rw [← setWidth_legalize, hlegal]

/-- Settles O44: the reset leaves the draws and the mode `M`, and two reads deliver the register as in O21. -/
theorem readsAfterResetReturnTheDraw : Obligations.ReadsAfterResetReturnTheDraw := by
  intro s l rd rd' hs himp hc hrd hrd'
  obtain ⟨u, v, hu, hv, hfirst, hsecond, -⟩ :=
    readingTwiceGivesSameValue (s.withSchedule l).resetAll rd rd' himp rfl hrd'
  refine ⟨_, u, v, step_of_move hs, hu, hv, ?_, hsecond.trans (hfirst hrd).symm, ?_⟩
  · rw [hfirst hrd, resetAll_inhibitValue (s := s.withSchedule l) hc himp]
    rfl
  · rw [hfirst hrd]
    exact State.setWidth_inhibitValue_and _

/-! ### Enabling every counter -/

/-- Settles O20: `x0` reads 0, and `legalize` of 0 has no bit set. -/
theorem writingZeroEnablesEveryCounter : Obligations.WritingZeroEnablesEveryCounter := by
  intro s himp hpriv
  obtain ⟨t, hexec, hreg⟩ := exec_csrrw_inhibitValue 0 0 himp hpriv
  have hzero : t.inhibitValue = 0#32 := by rw [hreg, State.readX_zero]; rfl
  refine ⟨t, hexec, hzero, fun c => ?_⟩
  rw [State.inhibited, hzero, inhibitBit, BitVec.getLsbD_zero]

end Sys2Proof.Machine
